-- ==== Sys2Proof/Word.lean ====
section
/-! DEFINITION. The machine's word types (00_scope.md R6, R8, R9; 10_state.md R21). Every value is unsigned (R8). -/

namespace Sys2Proof

/-- An 8-bit memory cell, general register, timer value or immediate `NN` (R6, R9). -/
abbrev Byte := BitVec 8

/-- A 16-bit instruction word, program counter, index register or stack entry (R6). -/
abbrev Word := BitVec 16

/-- A 4-bit field of an instruction word (00_scope.md §5, "Nibble"). -/
abbrev Nibble := BitVec 4

/-- The 12-bit immediate `NNN` (R9). -/
abbrev Imm12 := BitVec 12

/-- The number of a general register, 0x0 to 0xF (R21). -/
abbrev Reg := Fin 16

/-- `V0`, the register BNNN reads implicitly (R22). -/
abbrev Reg.v0 : Reg := 0

/-- `VF`, the register that doubles as carry, borrow and collision flag (R23). -/
abbrev Reg.vF : Reg := 15

end Sys2Proof
end

