-- ==== Sys2Proof/Syntax.lean ====
section
/-! DEFINITION. The instructions: one constructor per row of opcode_table.json (34 rows, 30_encoding.md R83).
Bits the decoder ignores (R71, R75, R78, R106) are kept as an operand named `ign`, because reports and fault records
carry the whole latched word (60_exceptions.md R200); no meaning computes with them. SHR and SHL keep their ignored `y`. -/

namespace Sys2Proof

inductive Instr where
  /-- 00E0 `CLS` (R171); `ign` is `w[11:4]`. -/
  | cls (ign : Byte)
  /-- 00EE `RET` (R101); `ign` is `w[11:4]`. -/
  | ret (ign : Byte)
  /-- 1NNN `JP NNN` (R102). -/
  | jp (nnn : Imm12)
  /-- 2NNN `CALL NNN` (R103). -/
  | call (nnn : Imm12)
  /-- 3XNN `SE Vx, NN` (R104). -/
  | seImm (x : Reg) (nn : Byte)
  /-- 4XNN `SNE Vx, NN` (R105). -/
  | sneImm (x : Reg) (nn : Byte)
  /-- 5XY0 `SE Vx, Vy` (R106); `ign` is `w[3:0]`. -/
  | seReg (x y : Reg) (ign : Nibble)
  /-- 6XNN `LD Vx, NN` (R123). -/
  | ldImm (x : Reg) (nn : Byte)
  /-- 7XNN `ADD Vx, NN` (R124). -/
  | addImm (x : Reg) (nn : Byte)
  /-- 8XY0 `LD Vx, Vy` (R125). -/
  | ldReg (x y : Reg)
  /-- 8XY1 `OR Vx, Vy` (R126). -/
  | orReg (x y : Reg)
  /-- 8XY2 `AND Vx, Vy` (R127). -/
  | andReg (x y : Reg)
  /-- 8XY3 `XOR Vx, Vy` (R128). -/
  | xorReg (x y : Reg)
  /-- 8XY4 `ADD Vx, Vy` (R129). -/
  | addReg (x y : Reg)
  /-- 8XY5 `SUB Vx, Vy` (R130). -/
  | subReg (x y : Reg)
  /-- 8XY6 `SHR Vx` (R131); `y` is encoded but ignored. -/
  | shr (x y : Reg)
  /-- 8XY7 `SUBN Vx, Vy` (R132). -/
  | subnReg (x y : Reg)
  /-- 8XYE `SHL Vx` (R133); `y` is encoded but ignored. -/
  | shl (x y : Reg)
  /-- 9XY0 `SNE Vx, Vy` (R107). -/
  | sneReg (x y : Reg)
  /-- ANNN `LD I, NNN` (R151). -/
  | ldI (nnn : Imm12)
  /-- BNNN `JP V0, NNN` (R108). -/
  | jpV0 (nnn : Imm12)
  /-- CXNN `RND Vx, NN` (R134). -/
  | rnd (x : Reg) (nn : Byte)
  /-- DXYN `DRW Vx, Vy, N` (R172). -/
  | drw (x y : Reg) (n : Nibble)
  /-- EX9E `SKP Vx` (R181); `ign` is `w[7:4]`. -/
  | skp (x : Reg) (ign : Nibble)
  /-- EXA1 `SKNP Vx` (R182); `ign` is `w[7:4]`. -/
  | sknp (x : Reg) (ign : Nibble)
  /-- FX07 `LD Vx, DT` (R184). -/
  | ldVxDT (x : Reg)
  /-- FX0A `LD Vx, K` (R183). -/
  | ldVxK (x : Reg)
  /-- FX15 `LD DT, Vx` (R185). -/
  | ldDTVx (x : Reg)
  /-- FX18 `LD ST, Vx` (R186). -/
  | ldSTVx (x : Reg)
  /-- FX1E `ADD I, Vx` (R152). -/
  | addIVx (x : Reg)
  /-- FX29 `LD F, Vx` (R153). -/
  | ldFVx (x : Reg)
  /-- FX33 `LD B, Vx` (R154). -/
  | ldBVx (x : Reg)
  /-- FX55 `LD [I], Vx` (R155). -/
  | ldMemVx (x : Reg)
  /-- FX65 `LD Vx, [I]` (R156). -/
  | ldVxMem (x : Reg)
  deriving DecidableEq, Repr

end Sys2Proof
end

