-- ==== Sys2Proof/WellFormed.lean ====
section
/-! DEFINITION. Which instructions are well-formed as SOURCE TEXT: the canonical word of each pattern, the only one an
assembler emits (30_encoding.md R84). Operand RANGES need no check here: `Reg`, `Byte`, `Nibble` and `Imm12` have no
value outside its field. The machine runs every `Instr`, canonical or not (R75, R78, R106, R131, R133), so no meaning and
no statement of the package takes this check as a premise. -/

namespace Sys2Proof

/-- The instruction's ignored bits are those of its canonical word (R84: `00E0` and `00EE`, low nibble 0 for 5XY0,
`Y = 0` for SHR and SHL, `9E` and `A1`). -/
def Instr.wellFormed : Instr → Bool
  | .cls ign => ign == 0x0E#8
  | .ret ign => ign == 0x0E#8
  | .seReg _ _ ign => ign == 0x0#4
  | .shr _ y => y == 0
  | .shl _ y => y == 0
  | .skp _ ign => ign == 0x9#4
  | .sknp _ ign => ign == 0xA#4
  | .jp _ | .call _ | .seImm _ _ | .sneImm _ _ | .ldImm _ _ | .addImm _ _ | .ldReg _ _ | .orReg _ _ | .andReg _ _
  | .xorReg _ _ | .addReg _ _ | .subReg _ _ | .subnReg _ _ | .sneReg _ _ | .ldI _ | .jpV0 _ | .rnd _ _ | .drw _ _ _
  | .ldVxDT _ | .ldVxK _ | .ldDTVx _ | .ldSTVx _ | .addIVx _ | .ldFVx _ | .ldBVx _ | .ldMemVx _ | .ldVxMem _ => true

end Sys2Proof
end

