-- ==== Sys2Proof/Decode.lean ====
section
/-! DEFINITION. The decoder (30_encoding.md R70 to R82), total on any bytes and rejecting by name; the encoder, written
from the formats of R71; and the rows of opcode_table.json as masks and matches. -/

namespace Sys2Proof

/-! ### Bit fields (R9, R71) -/

/-- `P = w[15:12]`, the primary selector. -/
def primary (w : Word) : Nibble := w.extractLsb' 12 4

/-- `X = w[11:8]`. -/
def regX (w : Word) : Reg := (w.extractLsb' 8 4).toFin

/-- `Y = w[7:4]`. -/
def regY (w : Word) : Reg := (w.extractLsb' 4 4).toFin

/-- `N = w[3:0]`, also the sub-selector of primaries 0x0, 0x8, 0x9 and 0xE. -/
def immN (w : Word) : Nibble := w.extractLsb' 0 4

/-- `NN = w[7:0]`, also the sub-selector of primary 0xF. -/
def immNN (w : Word) : Byte := w.extractLsb' 0 8

/-- `NNN = w[11:0]`. -/
def immNNN (w : Word) : Imm12 := w.extractLsb' 0 12

/-- `w[11:4]`, ignored by the `S0` format (R75). -/
def ignoredS0 (w : Word) : Byte := w.extractLsb' 4 8

/-- `w[7:4]`, ignored by the `XE` format (R78). -/
def ignoredXE (w : Word) : Nibble := w.extractLsb' 4 4

/-! ### The decoder -/

/-- Why bytes are not an instruction. -/
inductive Reject where
  /-- The word is one of the UNKNOWN words of R80. -/
  | unknown (w : Word)
  /-- Fewer than the two bytes every instruction has (R70). -/
  | truncated
  deriving DecidableEq, Repr

/-- SUB0 (R75): bits 11–4 are ignored. -/
def decodeSub0 (w : Word) : Except Reject Instr :=
  match immN w with
  | 0x0#4 => .ok (.cls (ignoredS0 w))
  | 0xE#4 => .ok (.ret (ignoredS0 w))
  | _ => .error (.unknown w)

/-- SUB8 (R76). -/
def decodeSub8 (w : Word) : Except Reject Instr :=
  match immN w with
  | 0x0#4 => .ok (.ldReg (regX w) (regY w))
  | 0x1#4 => .ok (.orReg (regX w) (regY w))
  | 0x2#4 => .ok (.andReg (regX w) (regY w))
  | 0x3#4 => .ok (.xorReg (regX w) (regY w))
  | 0x4#4 => .ok (.addReg (regX w) (regY w))
  | 0x5#4 => .ok (.subReg (regX w) (regY w))
  | 0x6#4 => .ok (.shr (regX w) (regY w))
  | 0x7#4 => .ok (.subnReg (regX w) (regY w))
  | 0xE#4 => .ok (.shl (regX w) (regY w))
  | _ => .error (.unknown w)

/-- Primary 0x9 (R77): only the low nibble 0x0 is an instruction. -/
def decodeSub9 (w : Word) : Except Reject Instr :=
  match immN w with
  | 0x0#4 => .ok (.sneReg (regX w) (regY w))
  | _ => .error (.unknown w)

/-- SUBE (R78): bits 7–4 are ignored. -/
def decodeSubE (w : Word) : Except Reject Instr :=
  match immN w with
  | 0xE#4 => .ok (.skp (regX w) (ignoredXE w))
  | 0x1#4 => .ok (.sknp (regX w) (ignoredXE w))
  | _ => .error (.unknown w)

/-- SUBF (R79). -/
def decodeSubF (w : Word) : Except Reject Instr :=
  match immNN w with
  | 0x07#8 => .ok (.ldVxDT (regX w))
  | 0x0A#8 => .ok (.ldVxK (regX w))
  | 0x15#8 => .ok (.ldDTVx (regX w))
  | 0x18#8 => .ok (.ldSTVx (regX w))
  | 0x1E#8 => .ok (.addIVx (regX w))
  | 0x29#8 => .ok (.ldFVx (regX w))
  | 0x33#8 => .ok (.ldBVx (regX w))
  | 0x55#8 => .ok (.ldMemVx (regX w))
  | 0x65#8 => .ok (.ldVxMem (regX w))
  | _ => .error (.unknown w)

/-- `decode(w)` of R73: the primary selector, then the sub-table where there is one (R74 to R79). -/
def decodeWord (w : Word) : Except Reject Instr :=
  match primary w with
  | 0x0#4 => decodeSub0 w
  | 0x1#4 => .ok (.jp (immNNN w))
  | 0x2#4 => .ok (.call (immNNN w))
  | 0x3#4 => .ok (.seImm (regX w) (immNN w))
  | 0x4#4 => .ok (.sneImm (regX w) (immNN w))
  | 0x5#4 => .ok (.seReg (regX w) (regY w) (immN w))
  | 0x6#4 => .ok (.ldImm (regX w) (immNN w))
  | 0x7#4 => .ok (.addImm (regX w) (immNN w))
  | 0x8#4 => decodeSub8 w
  | 0x9#4 => decodeSub9 w
  | 0xA#4 => .ok (.ldI (immNNN w))
  | 0xB#4 => .ok (.jpV0 (immNNN w))
  | 0xC#4 => .ok (.rnd (regX w) (immNN w))
  | 0xD#4 => .ok (.drw (regX w) (regY w) (immN w))
  | 0xE#4 => decodeSubE w
  | _ => decodeSubF w

/-- The word of two fetched bytes, big-endian: the byte at the lower address holds `w[15:8]` (R52). -/
def wordOfBytes (hi lo : Byte) : Word := hi ++ lo

/-- The decoder on bytes: it consumes exactly two (R70) and answers the rest. -/
def decode : List Byte → Except Reject (Instr × List Byte)
  | hi :: lo :: rest =>
    match decodeWord (wordOfBytes hi lo) with
    | .ok i => .ok (i, rest)
    | .error r => .error r
  | _ => .error .truncated

/-! ### The encoder (R71) -/

/-- The 4-bit field that names a register. -/
def Reg.nibble (r : Reg) : Nibble := BitVec.ofFin r

/-- The word of an instruction, field by field from the most significant nibble. -/
def encode : Instr → Word
  | .cls ign => 0x0#4 ++ ign ++ 0x0#4
  | .ret ign => 0x0#4 ++ ign ++ 0xE#4
  | .jp nnn => 0x1#4 ++ nnn
  | .call nnn => 0x2#4 ++ nnn
  | .seImm x nn => 0x3#4 ++ Reg.nibble x ++ nn
  | .sneImm x nn => 0x4#4 ++ Reg.nibble x ++ nn
  | .seReg x y ign => 0x5#4 ++ Reg.nibble x ++ Reg.nibble y ++ ign
  | .ldImm x nn => 0x6#4 ++ Reg.nibble x ++ nn
  | .addImm x nn => 0x7#4 ++ Reg.nibble x ++ nn
  | .ldReg x y => 0x8#4 ++ Reg.nibble x ++ Reg.nibble y ++ 0x0#4
  | .orReg x y => 0x8#4 ++ Reg.nibble x ++ Reg.nibble y ++ 0x1#4
  | .andReg x y => 0x8#4 ++ Reg.nibble x ++ Reg.nibble y ++ 0x2#4
  | .xorReg x y => 0x8#4 ++ Reg.nibble x ++ Reg.nibble y ++ 0x3#4
  | .addReg x y => 0x8#4 ++ Reg.nibble x ++ Reg.nibble y ++ 0x4#4
  | .subReg x y => 0x8#4 ++ Reg.nibble x ++ Reg.nibble y ++ 0x5#4
  | .shr x y => 0x8#4 ++ Reg.nibble x ++ Reg.nibble y ++ 0x6#4
  | .subnReg x y => 0x8#4 ++ Reg.nibble x ++ Reg.nibble y ++ 0x7#4
  | .shl x y => 0x8#4 ++ Reg.nibble x ++ Reg.nibble y ++ 0xE#4
  | .sneReg x y => 0x9#4 ++ Reg.nibble x ++ Reg.nibble y ++ 0x0#4
  | .ldI nnn => 0xA#4 ++ nnn
  | .jpV0 nnn => 0xB#4 ++ nnn
  | .rnd x nn => 0xC#4 ++ Reg.nibble x ++ nn
  | .drw x y n => 0xD#4 ++ Reg.nibble x ++ Reg.nibble y ++ n
  | .skp x ign => 0xE#4 ++ Reg.nibble x ++ ign ++ 0xE#4
  | .sknp x ign => 0xE#4 ++ Reg.nibble x ++ ign ++ 0x1#4
  | .ldVxDT x => 0xF#4 ++ Reg.nibble x ++ 0x07#8
  | .ldVxK x => 0xF#4 ++ Reg.nibble x ++ 0x0A#8
  | .ldDTVx x => 0xF#4 ++ Reg.nibble x ++ 0x15#8
  | .ldSTVx x => 0xF#4 ++ Reg.nibble x ++ 0x18#8
  | .addIVx x => 0xF#4 ++ Reg.nibble x ++ 0x1E#8
  | .ldFVx x => 0xF#4 ++ Reg.nibble x ++ 0x29#8
  | .ldBVx x => 0xF#4 ++ Reg.nibble x ++ 0x33#8
  | .ldMemVx x => 0xF#4 ++ Reg.nibble x ++ 0x55#8
  | .ldVxMem x => 0xF#4 ++ Reg.nibble x ++ 0x65#8

/-- The two bytes of an instruction as memory holds them, lower address first (R52). -/
def encodeBytes (i : Instr) : List Byte := [(encode i).extractLsb' 8 8, (encode i).extractLsb' 0 8]

/-! ### The opcode table (opcode_table.json, R81) -/

/-- A row's mask and match: the row's words are those `w` with `w &&& mask = value`. -/
structure OpcodeRow where
  mask  : Word
  value : Word
  deriving DecidableEq, Repr

/-- The row of opcode_table.json an instruction belongs to. -/
def Instr.row : Instr → OpcodeRow
  | .cls _ => ⟨0xF00F#16, 0x0000#16⟩
  | .ret _ => ⟨0xF00F#16, 0x000E#16⟩
  | .jp _ => ⟨0xF000#16, 0x1000#16⟩
  | .call _ => ⟨0xF000#16, 0x2000#16⟩
  | .seImm _ _ => ⟨0xF000#16, 0x3000#16⟩
  | .sneImm _ _ => ⟨0xF000#16, 0x4000#16⟩
  | .seReg _ _ _ => ⟨0xF000#16, 0x5000#16⟩
  | .ldImm _ _ => ⟨0xF000#16, 0x6000#16⟩
  | .addImm _ _ => ⟨0xF000#16, 0x7000#16⟩
  | .ldReg _ _ => ⟨0xF00F#16, 0x8000#16⟩
  | .orReg _ _ => ⟨0xF00F#16, 0x8001#16⟩
  | .andReg _ _ => ⟨0xF00F#16, 0x8002#16⟩
  | .xorReg _ _ => ⟨0xF00F#16, 0x8003#16⟩
  | .addReg _ _ => ⟨0xF00F#16, 0x8004#16⟩
  | .subReg _ _ => ⟨0xF00F#16, 0x8005#16⟩
  | .shr _ _ => ⟨0xF00F#16, 0x8006#16⟩
  | .subnReg _ _ => ⟨0xF00F#16, 0x8007#16⟩
  | .shl _ _ => ⟨0xF00F#16, 0x800E#16⟩
  | .sneReg _ _ => ⟨0xF00F#16, 0x9000#16⟩
  | .ldI _ => ⟨0xF000#16, 0xA000#16⟩
  | .jpV0 _ => ⟨0xF000#16, 0xB000#16⟩
  | .rnd _ _ => ⟨0xF000#16, 0xC000#16⟩
  | .drw _ _ _ => ⟨0xF000#16, 0xD000#16⟩
  | .skp _ _ => ⟨0xF00F#16, 0xE00E#16⟩
  | .sknp _ _ => ⟨0xF00F#16, 0xE001#16⟩
  | .ldVxDT _ => ⟨0xF0FF#16, 0xF007#16⟩
  | .ldVxK _ => ⟨0xF0FF#16, 0xF00A#16⟩
  | .ldDTVx _ => ⟨0xF0FF#16, 0xF015#16⟩
  | .ldSTVx _ => ⟨0xF0FF#16, 0xF018#16⟩
  | .addIVx _ => ⟨0xF0FF#16, 0xF01E#16⟩
  | .ldFVx _ => ⟨0xF0FF#16, 0xF029#16⟩
  | .ldBVx _ => ⟨0xF0FF#16, 0xF033#16⟩
  | .ldMemVx _ => ⟨0xF0FF#16, 0xF055#16⟩
  | .ldVxMem _ => ⟨0xF0FF#16, 0xF065#16⟩

/-! ### The host's reading of a table word -/

/-- The instruction the decoder reads from a word numbered as opcode_table.json numbers it: bits above `nbits` are 0, and
the word is laid out big-endian (R52). -/
def decodeTableWord (nbits w : Nat) : Option Instr :=
  let word : Word := BitVec.ofNat 16 (w % 2 ^ nbits)
  match decode [word.extractLsb' 8 8, word.extractLsb' 0 8] with
  | .ok (i, _) => some i
  | .error _ => none

end Sys2Proof
end

