-- ==== Sys2Proof/Config.lean ====
section
/-! DEFINITION. What the source leaves to the implementation (00_scope.md R7): the four policies, the font, and the free
random byte. A `Params` value is one choice of them all; the model keeps it in `State.params`, so that every statement
about every state is a statement about every choice (log entry 1). -/

namespace Sys2Proof

/-- `MEM_ADDR_POLICY` (R7, R53, decision D3): what a byte address above 0xFFF does. -/
inductive MemAddrPolicy where
  | fault
  | wrap12
  deriving DecidableEq, Repr

/-- `KEY_INDEX_POLICY` (R7, R180, decision D4): what a key index above 15 does. -/
inductive KeyIndexPolicy where
  | fault
  | mask4
  deriving DecidableEq, Repr

/-- `FONT_INDEX_POLICY` (R7, R153, decision D5): what FX29 does with a digit above 15. -/
inductive FontIndexPolicy where
  | formula
  | mask4
  | fault
  deriving DecidableEq, Repr

/-- `VF_DEST_POLICY` (R7, R122, decision D6): what a flag-writing ALU instruction that names VF does. -/
inductive VfDestPolicy where
  | flagLast
  | refuse
  deriving DecidableEq, Repr

/-- `FONT` (R7, R41, decision D29): the 80 glyph bytes, glyph `d` at offsets `5*d` to `5*d + 4`. -/
abbrev Font := Vector Byte 80

/-- One choice of every parameter rule R7 leaves to the implementation, but for the random byte. -/
structure Params where
  memAddr   : MemAddrPolicy
  keyIndex  : KeyIndexPolicy
  fontIndex : FontIndexPolicy
  vfDest    : VfDestPolicy
  font      : Font
  deriving DecidableEq, Repr

/-- `RAND` / `draw8()` (R7, R11, R37, R98, decision D16): the byte the `n`-th draw yields. FREE VALUE: nothing
constrains it, so a statement holds for every sequence of draws (log entry 2). -/
opaque Config.draw8 : Nat → Byte

end Sys2Proof
end

