-- ==== Sys2Proof/Machine/Defaults.lean ====
section
/-! DEFINITION. The default value of every parameter (00_scope.md R7) and the reset entry point. -/

namespace Sys2Proof.Machine

/-- The customary glyphs of R41, digits 0 to 7, one row per digit. PRESUMED (log entry 3): the source gives no bytes. -/
def fontLow : Vector Byte 40 :=
  #v[0xF0, 0x90, 0x90, 0x90, 0xF0,
     0x20, 0x60, 0x20, 0x20, 0x70,
     0xF0, 0x10, 0xF0, 0x80, 0xF0,
     0xF0, 0x10, 0xF0, 0x10, 0xF0,
     0x90, 0x90, 0xF0, 0x10, 0x10,
     0xF0, 0x80, 0xF0, 0x10, 0xF0,
     0xF0, 0x80, 0xF0, 0x90, 0xF0,
     0xF0, 0x10, 0x20, 0x40, 0x40]

/-- The customary glyphs of R41, digits 8 to F, one row per digit. PRESUMED (log entry 3). -/
def fontHigh : Vector Byte 40 :=
  #v[0xF0, 0x90, 0xF0, 0x90, 0xF0,
     0xF0, 0x90, 0xF0, 0x10, 0xF0,
     0xF0, 0x90, 0xF0, 0x90, 0x90,
     0xE0, 0x90, 0xE0, 0x90, 0xE0,
     0xF0, 0x80, 0x80, 0x80, 0xF0,
     0xE0, 0x90, 0x90, 0x90, 0xE0,
     0xF0, 0x80, 0xF0, 0x80, 0xF0,
     0xF0, 0x80, 0xF0, 0x80, 0x80]

/-- The default `FONT` of R7 and R41. -/
def defaultFont : Font := fontLow ++ fontHigh

/-- The defaults of R7 (decisions D3, D4, D5, D6, D29). -/
def defaultParams : Params where
  memAddr := .fault
  keyIndex := .fault
  fontIndex := .formula
  vfDest := .flagLast
  font := defaultFont

/-- The entry point after reset and after a load (R40, R230, R234). -/
def entryPoint : Word := 0x200#16

end Sys2Proof.Machine
end

