-- ==== Sys2Proof/Machine/State.lean ====
section
/-! DEFINITION. The machine's state (10_state.md R20), plain data; the reasons a step stops (60_exceptions.md R200); and
the reset state (R40). -/

namespace Sys2Proof.Machine

/-- Why the machine stops with a fault (R200, R204, R205). Each names the instruction of the step that raised it (R208). -/
inductive Fault where
  /-- Code 16 (R91): raised by the fetch of a step, under `MEM_ADDR_POLICY = fault`, when `PC + 1 > 0xFFF`. Safe: the
  spec stops here too, and the source leaves the access unguarded. -/
  | fetchRange (a : Word)
  /-- Code 17 (R53): raised by DXYN, FX33, FX55 and FX65 under `MEM_ADDR_POLICY = fault`; `b` is the first address above
  0xFFF. Safe, as `fetchRange`. -/
  | memRange (w a : Word) (b : Nat)
  /-- Code 18 (R180): raised by EX9E and EXA1 with `V[X] > 15` under `KEY_INDEX_POLICY = fault`. Safe: the source calls
  the case undefined. -/
  | keyRange (w a : Word)
  /-- Code 19 (R153): raised by FX29 with `V[X] > 15` under `FONT_INDEX_POLICY = fault`. Safe. -/
  | fontRange (w a : Word)
  deriving DecidableEq, Repr

/-- Why the machine declines a form (R200, R206). -/
inductive Refusal where
  /-- Raised by no meaning: an instruction of the table that the model has not reached (there is none). Safe. -/
  | notModelled (mnemonic : String)
  /-- Code 32 (R122): raised by 8XY4, 8XY5, 8XY6, 8XY7 and 8XYE naming VF under `VF_DEST_POLICY = refuse`. Safe: the
  default policy gives these forms their effect. -/
  | vfOperand (w a : Word)
  deriving DecidableEq, Repr

/-- One record of the report stream (R200, R202): a non-fatal error and its info. -/
inductive Report where
  /-- Code 1 (R201). -/
  | unknownOpcode (w a : Word)
  /-- Code 2 (R101). -/
  | stackUnderflow (w a : Word)
  /-- Code 3 (R103). -/
  | stackOverflow (w a : Word)
  /-- Code 4 (R235): the length of the refused program. -/
  | programTooLarge (n : Nat)
  deriving DecidableEq, Repr

/-- `STATUS` (R38). -/
inductive Status where
  | running
  | faulted (f : Fault)
  | refused (r : Refusal)
  deriving DecidableEq, Repr

/-- `MEM` (R35, R50): the cells that differ from their reset contents, by rising address (log entry 4). -/
abbrev Memory := List Host.Cell

/-- `FB` (R33): 32 rows of 64 pixels; `fb[y][x]` is `FB[y][x]`, true for a set pixel. -/
abbrev Framebuffer := Vector (Vector Bool 64) 32

/-- The state of the block (R20), and three fields of the model's own: `params` (R7, log entry 1), `reportOut` (R202, log
entry 5) and `draws` (R98, log entry 2). -/
structure State where
  /-- `MEM[0..4095]`. -/
  mem : Memory
  /-- `V[0..15]`. -/
  v : Vector Byte 16
  /-- `I`. -/
  i : Word
  /-- `PC`. -/
  pc : Word
  /-- `STACK[0..15]`. -/
  stack : Vector Word 16
  /-- `SP`, 0 to 16 (R29). -/
  sp : Fin 17
  /-- `DT`. -/
  dt : Byte
  /-- `ST`. -/
  st : Byte
  /-- `FB[0..31][0..63]`. -/
  fb : Framebuffer
  /-- `KEY[0..15]`; true means pressed. -/
  key : Vector Bool 16
  /-- `STATUS`. -/
  status : Status
  /-- The parameters of R7; no step writes them. -/
  params : Params
  /-- The records emitted on `report_out` so far, oldest first. No instruction reads it. -/
  reportOut : List Report
  /-- How many bytes have been drawn: the next draw is `Config.draw8 draws`. -/
  draws : Nat
  deriving DecidableEq, Repr

/-- The creation state of R40 under the given parameters: everything zero but the font (in place because an unlisted
address reads as its reset contents) and `PC`. -/
def State.create (p : Params) : State where
  mem := []
  v := Vector.replicate 16 0
  i := 0
  pc := entryPoint
  stack := Vector.replicate 16 0
  sp := 0
  dt := 0
  st := 0
  fb := Vector.replicate 32 (Vector.replicate 64 false)
  key := Vector.replicate 16 false
  status := .running
  params := p
  reportOut := []
  draws := 0

/-- The machine right after reset (R40, R230), with the default parameters of R7. -/
def State.reset : State := State.create defaultParams

end Sys2Proof.Machine
end

