-- ==== Sys2Proof/Machine/Ops.lean ====
section
/-! DEFINITION. The named operations over memory, registers, stack, framebuffer, timers and program counter, and the
shared ways a step ends abnormally (reports, faults, refusals: 60_exceptions.md). There is no trap to take and none to
return from (R208, R209): an abnormal event is one of the three operations under "Events". -/

namespace Sys2Proof.Machine

/-- What a meaning answers. -/
abbrev Result := Host.Outcome State Fault Refusal

/-! ### Memory (20_memory.md) -/

/-- What an unlisted address reads as: its reset contents, `FONT` at 0x050 to 0x09F and 0 elsewhere (R40, R58). -/
def Memory.unlisted (font : Font) (a : Nat) : Byte :=
  if h : 0x050 ≤ a ∧ a < 0x0A0 then font[a - 0x050] else 0

/-- `MemRead(a, 1)` after the address check (R11, R56). -/
def Memory.read (font : Font) : Memory → Nat → Byte
  | [], a => Memory.unlisted font a
  | (k, x) :: m, a => if k = a then x else Memory.read font m a

/-- `MemWrite(a, 1, v)` after the address check (R11, R56). It keeps the canonical form. -/
def Memory.write (font : Font) : Memory → Nat → Byte → Memory
  | [], a, v => if v = Memory.unlisted font a then [] else [(a, v)]
  | (k, x) :: m, a, v =>
    if a < k then
      if v = Memory.unlisted font a then (k, x) :: m else (a, v) :: (k, x) :: m
    else if a = k then
      if v = Memory.unlisted font a then m else (a, v) :: m
    else (k, x) :: Memory.write font m a v

/-- The canonical form from address `lo` on: addresses rising and at most 0xFFF, no cell equal to its reset contents. -/
def Memory.wfFrom (font : Font) : Nat → Memory → Bool
  | _, [] => true
  | lo, (k, x) :: m =>
    decide (lo ≤ k) && decide (k ≤ 0xFFF) && decide (x ≠ Memory.unlisted font k) && Memory.wfFrom font (k + 1) m

/-- The canonical form of a memory: equal memories are equal lists. -/
def Memory.wf (font : Font) (m : Memory) : Bool := Memory.wfFrom font 0 m

/-- Write bytes at the given addresses, one after the other (R55). -/
def Memory.writeMany (font : Font) : Memory → List Nat → List Byte → Memory
  | m, a :: as, b :: bs => Memory.writeMany font (Memory.write font m a b) as bs
  | m, _, _ => m

/-- The cell at byte address `a` as the machine reads it. -/
def State.readMem (s : State) (a : Nat) : Byte := Memory.read s.params.font s.mem a

/-- The machine with bytes written at the given addresses. -/
def State.writeMem (s : State) (as : List Nat) (bs : List Byte) : State :=
  { s with mem := Memory.writeMany s.params.font s.mem as bs }

/-- `chk(b)` (R53): the physical address, or `b` itself as the address that fails. -/
def checkAddr (policy : MemAddrPolicy) (b : Nat) : Except Nat Nat :=
  if b ≤ 0xFFF then .ok b
  else match policy with
    | .fault => .error b
    | .wrap12 => .ok (b % 0x1000)

/-- `chk(base), chk(base + 1), …`: the `n` physical addresses of a block, all checked first and in ascending order, or
the first failing address (R53, R55, R150, R203). -/
def checkBlock (policy : MemAddrPolicy) (base : Nat) : Nat → Except Nat (List Nat)
  | 0 => .ok []
  | n + 1 =>
    match checkAddr policy base with
    | .error b => .error b
    | .ok p =>
      match checkBlock policy (base + 1) n with
      | .error b => .error b
      | .ok ps => .ok (p :: ps)

/-! ### Registers (10_state.md R21, R22, R27) -/

/-- `V[r] <- b`. -/
def State.setV (s : State) (r : Reg) (b : Byte) : State := { s with v := s.v.set r b }

/-- `V[k], V[k+1], …` become the given bytes, in ascending order (R156). -/
def setRegsFrom (v : Vector Byte 16) (k : Nat) : List Byte → Vector Byte 16
  | [] => v
  | b :: bs => setRegsFrom (v.setIfInBounds k b) (k + 1) bs

/-- `I <- a`. -/
def State.setI (s : State) (a : Word) : State := { s with i := a }

/-- `PC <- a`. -/
def State.setPC (s : State) (a : Word) : State := { s with pc := a }

/-- The advance of R92, which is also the skip of R100: `PC <- (PC + 2) mod 2^16`. -/
def State.advance (s : State) : State := s.setPC (s.pc + 2)

/-- The rewind of R183: `PC <- (PC - 2) mod 2^16`. -/
def State.rewind (s : State) : State := s.setPC (s.pc - 2)

/-- `if c then skip()` (R100). -/
def State.skipIf (s : State) (c : Bool) : State := if c then s.advance else s

/-! ### The return stack (R29, R30) -/

/-- Push the program counter: nothing when 16 entries are live. -/
def State.push (s : State) : Option State :=
  if h : s.sp.val < 16 then
    some { s with stack := s.stack.set s.sp.val s.pc, sp := ⟨s.sp.val + 1, by omega⟩ }
  else none

/-- Pop into the program counter, leaving the entry in place (D19): nothing when no entry is live. -/
def State.pop (s : State) : Option State :=
  match s.sp with
  | ⟨0, _⟩ => none
  | ⟨k + 1, h⟩ => some { s with sp := ⟨k, by omega⟩, pc := s.stack[k] }

/-! ### The framebuffer (R33, R172) -/

/-- A pixel's column and row. -/
abbrev Pixel := Fin 64 × Fin 32

/-- `FB[y][x]`. -/
def Framebuffer.get (fb : Framebuffer) (p : Pixel) : Bool := fb[p.2][p.1]

/-- `FB[y][x] <- FB[y][x] ^ 1`. -/
def Framebuffer.flip (fb : Framebuffer) (p : Pixel) : Framebuffer :=
  fb.set p.2 (fb[p.2].set p.1 (!fb[p.2][p.1]))

/-- Every pixel clear. -/
def Framebuffer.blank : Framebuffer := Vector.replicate 32 (Vector.replicate 64 false)

/-- The columns 0 to 7 whose bit is set in a sprite byte, most significant bit leftmost. -/
def spriteColumns (b : Byte) : List Nat := (List.range 8).filter fun c => b.getLsbD (7 - c)

/-- The pixels a sprite's set bits fall on, row by row, wrapping at the edges. -/
def spritePixels (x0 y0 : Nat) : List Byte → List Pixel
  | [] => []
  | b :: bs =>
    (spriteColumns b).map (fun c => (Fin.ofNat 64 (x0 + c), Fin.ofNat 32 y0)) ++ spritePixels x0 (y0 + 1) bs

/-- Flip one pixel and note a set pixel turned off. -/
def plot (acc : Framebuffer × Bool) (p : Pixel) : Framebuffer × Bool :=
  (acc.1.flip p, acc.2 || acc.1.get p)

/-- The draw loop of R172: the framebuffer after it and whether any pixel was turned off. -/
def Framebuffer.draw (fb : Framebuffer) (ps : List Pixel) : Framebuffer × Bool := ps.foldl plot (fb, false)

/-! ### Keypad and timers (45_keys_timers.md) -/

/-- The pressed key of lowest index (R183). -/
def State.firstKey (s : State) : Option (Fin 16) := (List.finRange 16).find? fun k => s.key[k]

/-- A timer's decrement: it saturates at 0 (R187). -/
def decTimer (t : Byte) : Byte := if t = 0 then 0 else t - 1

/-- `tick()` (R187). -/
def State.tick (s : State) : State := { s with dt := decTimer s.dt, st := decTimer s.st }

/-! ### Events (60_exceptions.md R200 to R206) -/

/-- The fetch address of the instruction being executed: `PC` was advanced by 2 before dispatch (R24, R92). -/
def State.fetchAddr (s : State) : Word := s.pc - 2

/-- `report(kind, info)`: append one record and go on (R202). -/
def State.report (s : State) (r : Report) : State := { s with reportOut := s.reportOut ++ [r] }

/-- `raise Fault(kind, info)`: the step ends here and changes nothing but `STATUS` (R95, R204). -/
def raiseFault (f : Fault) : Result := .fault f

/-- `raise Refuse(kind, info)`: the step ends here and changes nothing but `STATUS` (R95, R206). -/
def raiseRefusal (r : Refusal) : Result := .refused r

/-- A report's code (R200). -/
def Report.code : Report → Nat
  | .unknownOpcode _ _ => 1
  | .stackUnderflow _ _ => 2
  | .stackOverflow _ _ => 3
  | .programTooLarge _ => 4

/-- A fault's code (R200). -/
def Fault.code : Fault → Nat
  | .fetchRange _ => 16
  | .memRange _ _ _ => 17
  | .keyRange _ _ => 18
  | .fontRange _ _ => 19

/-- A refusal's code (R200); the model's own refusal has none. -/
def Refusal.code : Refusal → Option Nat
  | .vfOperand _ _ => some 32
  | _ => none

/-- Use the `n` checked addresses from `I` on, or fault with the first failing one (R150). -/
def withBlock (instr : Instr) (s : State) (n : Nat) (k : List Nat → State) : Result :=
  match checkBlock s.params.memAddr s.i.toNat n with
  | .ok ps => .next (k ps)
  | .error b => raiseFault (.memRange (encode instr) s.fetchAddr b)

end Sys2Proof.Machine
end

