-- ==== Sys2Proof/Machine/Operands.lean ====
section
/-! DEFINITION. The operand forms: zero-extended immediates and registers (R8, R72), checked key and glyph indices
(R153, R180), and decimal digits (R154). -/

namespace Sys2Proof.Machine

/-- `zext16(NNN)` (R72). -/
def zext12 (nnn : Imm12) : Word := nnn.setWidth 16

/-- `zext16(v)` of a byte. -/
def zext8 (b : Byte) : Word := b.setWidth 16

/-- `keyidx(v)` (R180): the key a register value names, or none where the policy faults. -/
def keyIndex (policy : KeyIndexPolicy) (b : Byte) : Option (Fin 16) :=
  if h : b.toNat < 16 then some ⟨b.toNat, h⟩
  else match policy with
    | .fault => none
    | .mask4 => some (Fin.ofNat 16 b.toNat)

/-- The glyph number FX29 takes from a register value, or none where the policy faults (R153). -/
def glyphIndex (policy : FontIndexPolicy) (b : Byte) : Option Nat :=
  match policy with
  | .formula => some b.toNat
  | .mask4 => some (b.toNat % 16)
  | .fault => if b.toNat ≤ 15 then some b.toNat else none

/-- The address of a glyph: `0x050 + 5 * d` (R153). -/
def glyphAddr (d : Nat) : Word := BitVec.ofNat 16 (0x050 + 5 * d)

/-- The hundreds, tens and ones digits of a byte (R154). -/
def bcdDigits (b : Byte) : List Byte :=
  [BitVec.ofNat 8 (b.toNat / 100), BitVec.ofNat 8 (b.toNat / 10 % 10), BitVec.ofNat 8 (b.toNat % 10)]

/-- `V[0], …, V[X]` (R155). -/
def regsUpTo (v : Vector Byte 16) (x : Reg) : List Byte := v.toList.take (x.val + 1)

end Sys2Proof.Machine
end

