-- ==== Sys2Proof/Machine/Flags.lean ====
section
/-! DEFINITION. The flag logic of the 8-bit ALU (42_alu.md R121, R122): every flag is computed from the latched operands,
and VF is written last. -/

namespace Sys2Proof.Machine

/-- `carry(x, y)`. -/
def carryFlag (x y : Byte) : Bool := decide (x.toNat + y.toNat > 255)

/-- `gt(x, y)`, a strict comparison: the subtract flags are 0 for equal operands. -/
def gtFlag (x y : Byte) : Bool := decide (x.toNat > y.toNat)

/-- `lsb(x)`. -/
def lsbFlag (x : Byte) : Bool := x.getLsbD 0

/-- `msb(x)`. -/
def msbFlag (x : Byte) : Bool := x.getLsbD 7

/-- The byte VF receives: 1 or 0. -/
def flagByte (b : Bool) : Byte := if b then 1 else 0

/-- What an ALU operation computes: the result and the flag. -/
abbrev AluOp := Byte → Byte → Byte × Bool

/-- R129. -/
def aluAdd : AluOp := fun x y => (x + y, carryFlag x y)

/-- R130. -/
def aluSub : AluOp := fun x y => (x - y, gtFlag x y)

/-- R131; the second operand is ignored. -/
def aluShr : AluOp := fun x _ => (x >>> 1, lsbFlag x)

/-- R132. -/
def aluSubn : AluOp := fun x y => (y - x, gtFlag y x)

/-- R133; the second operand is ignored. -/
def aluShl : AluOp := fun x _ => (x <<< 1, msbFlag x)

/-- Whether the form names VF as an operand or destination the write order could decide (R122). -/
def namesVF (x y : Reg) (readsY : Bool) : Bool := x == Reg.vF || (readsY && y == Reg.vF)

/-- `alu_vf(op)` (R122): operands latched, `V[X]` written, then VF; refused under `VF_DEST_POLICY = refuse` when VF is
named. -/
def aluVF (instr : Instr) (x y : Reg) (readsY : Bool) (op : AluOp) (s : State) : Result :=
  if s.params.vfDest = .refuse ∧ namesVF x y readsY = true then
    raiseRefusal (.vfOperand (encode instr) s.fetchAddr)
  else
    let r := op s.v[x] s.v[y]
    .next ((s.setV x r.1).setV Reg.vF (flagByte r.2))

end Sys2Proof.Machine
end

