-- ==== Sys2Proof/Machine/Alu.lean ====
section
/-! DEFINITION. The 8-bit ALU (42_alu.md). -/

namespace Sys2Proof.Machine

/-- 6XNN `LD Vx, NN` (R123). -/
def execLdImm (x : Reg) (nn : Byte) (s : State) : Result := .next (s.setV x nn)

/-- 7XNN `ADD Vx, NN` (R124). VF is not written; from general knowledge, GK5 (log entry 9). -/
def execAddImm (x : Reg) (nn : Byte) (s : State) : Result := .next (s.setV x (s.v[x] + nn))

/-- 8XY0 `LD Vx, Vy` (R125). -/
def execLdReg (x y : Reg) (s : State) : Result := .next (s.setV x s.v[y])

/-- 8XY1 `OR Vx, Vy` (R126). -/
def execOrReg (x y : Reg) (s : State) : Result := .next (s.setV x (s.v[x] ||| s.v[y]))

/-- 8XY2 `AND Vx, Vy` (R127). -/
def execAndReg (x y : Reg) (s : State) : Result := .next (s.setV x (s.v[x] &&& s.v[y]))

/-- 8XY3 `XOR Vx, Vy` (R128). -/
def execXorReg (x y : Reg) (s : State) : Result := .next (s.setV x (s.v[x] ^^^ s.v[y]))

/-- 8XY4 `ADD Vx, Vy` (R129). -/
def execAddReg (x y : Reg) (s : State) : Result := aluVF (.addReg x y) x y true aluAdd s

/-- 8XY5 `SUB Vx, Vy` (R130). -/
def execSubReg (x y : Reg) (s : State) : Result := aluVF (.subReg x y) x y true aluSub s

/-- 8XY6 `SHR Vx` (R131). -/
def execShr (x y : Reg) (s : State) : Result := aluVF (.shr x y) x y false aluShr s

/-- 8XY7 `SUBN Vx, Vy` (R132). -/
def execSubnReg (x y : Reg) (s : State) : Result := aluVF (.subnReg x y) x y true aluSubn s

/-- 8XYE `SHL Vx` (R133). -/
def execShl (x y : Reg) (s : State) : Result := aluVF (.shl x y) x y false aluShl s

/-- CXNN `RND Vx, NN` (R134): one fresh free byte, under the mask. -/
def execRnd (x : Reg) (nn : Byte) (s : State) : Result :=
  .next { s.setV x (Config.draw8 s.draws &&& nn) with draws := s.draws + 1 }

end Sys2Proof.Machine
end

