-- ==== Sys2Proof/Machine/Display.lean ====
section
/-! DEFINITION. The framebuffer instructions (44_display.md). -/

namespace Sys2Proof.Machine

/-- 00E0 `CLS` (R171). -/
def execCls (s : State) : Result := .next { s with fb := Framebuffer.blank }

/-- DXYN `DRW Vx, Vy, N` (R172): coordinates latched before VF is reset, all addresses checked before any change, VF the
collision. -/
def execDrw (x y : Reg) (n : Nibble) (s : State) : Result :=
  withBlock (.drw x y n) s n.toNat fun ps =>
    let d := s.fb.draw (spritePixels s.v[x].toNat s.v[y].toNat (ps.map s.readMem))
    { s.setV Reg.vF (flagByte d.2) with fb := d.1 }

end Sys2Proof.Machine
end

