-- ==== Sys2Proof/Machine/Flow.lean ====
section
/-! DEFINITION. Control transfer (41_flow.md). On entry `PC` is the fetch address plus 2 (R92). -/

namespace Sys2Proof.Machine

/-- 00EE `RET` (R101). -/
def execRet (ign : Byte) (s : State) : Result :=
  match s.pop with
  | some t => .next t
  | none => .next (s.report (.stackUnderflow (encode (.ret ign)) s.fetchAddr))

/-- 1NNN `JP NNN` (R102). -/
def execJp (nnn : Imm12) (s : State) : Result := .next (s.setPC (zext12 nnn))

/-- 2NNN `CALL NNN` (R103). -/
def execCall (nnn : Imm12) (s : State) : Result :=
  match s.push with
  | some t => .next (t.setPC (zext12 nnn))
  | none => .next (s.report (.stackOverflow (encode (.call nnn)) s.fetchAddr))

/-- 3XNN `SE Vx, NN` (R104). -/
def execSeImm (x : Reg) (nn : Byte) (s : State) : Result := .next (s.skipIf (s.v[x] == nn))

/-- 4XNN `SNE Vx, NN` (R105). -/
def execSneImm (x : Reg) (nn : Byte) (s : State) : Result := .next (s.skipIf (s.v[x] != nn))

/-- 5XY0 `SE Vx, Vy` (R106). -/
def execSeReg (x y : Reg) (s : State) : Result := .next (s.skipIf (s.v[x] == s.v[y]))

/-- 9XY0 `SNE Vx, Vy` (R107). -/
def execSneReg (x y : Reg) (s : State) : Result := .next (s.skipIf (s.v[x] != s.v[y]))

/-- BNNN `JP V0, NNN` (R108). -/
def execJpV0 (nnn : Imm12) (s : State) : Result := .next (s.setPC (zext12 nnn + zext8 s.v[Reg.v0]))

end Sys2Proof.Machine
end

