-- ==== Sys2Proof/Machine/Index.lean ====
section
/-! DEFINITION. Index register and memory-block instructions (43_index_memory.md). All addresses are checked before the
first write (R150). -/

namespace Sys2Proof.Machine

/-- ANNN `LD I, NNN` (R151). -/
def execLdI (nnn : Imm12) (s : State) : Result := .next (s.setI (zext12 nnn))

/-- FX1E `ADD I, Vx` (R152). VF is not written; from general knowledge, GK7 (log entry 9). -/
def execAddIVx (x : Reg) (s : State) : Result := .next (s.setI (s.i + zext8 s.v[x]))

/-- FX29 `LD F, Vx` (R153). -/
def execLdFVx (x : Reg) (s : State) : Result :=
  match glyphIndex s.params.fontIndex s.v[x] with
  | some d => .next (s.setI (glyphAddr d))
  | none => raiseFault (.fontRange (encode (.ldFVx x)) s.fetchAddr)

/-- FX33 `LD B, Vx` (R154). -/
def execLdBVx (x : Reg) (s : State) : Result :=
  withBlock (.ldBVx x) s 3 fun ps => s.writeMem ps (bcdDigits s.v[x])

/-- FX55 `LD [I], Vx` (R155). -/
def execLdMemVx (x : Reg) (s : State) : Result :=
  withBlock (.ldMemVx x) s (x.val + 1) fun ps => s.writeMem ps (regsUpTo s.v x)

/-- FX65 `LD Vx, [I]` (R156). -/
def execLdVxMem (x : Reg) (s : State) : Result :=
  withBlock (.ldVxMem x) s (x.val + 1) fun ps => { s with v := setRegsFrom s.v 0 (ps.map s.readMem) }

end Sys2Proof.Machine
end

