-- ==== Sys2Proof/Machine/Keys.lean ====
section
/-! DEFINITION. Keypad and timer instructions (45_keys_timers.md). -/

namespace Sys2Proof.Machine

/-- EX9E `SKP Vx` (R181). -/
def execSkp (x : Reg) (ign : Nibble) (s : State) : Result :=
  match keyIndex s.params.keyIndex s.v[x] with
  | some k => .next (s.skipIf s.key[k])
  | none => raiseFault (.keyRange (encode (.skp x ign)) s.fetchAddr)

/-- EXA1 `SKNP Vx` (R182). -/
def execSknp (x : Reg) (ign : Nibble) (s : State) : Result :=
  match keyIndex s.params.keyIndex s.v[x] with
  | some k => .next (s.skipIf (!s.key[k]))
  | none => raiseFault (.keyRange (encode (.sknp x ign)) s.fetchAddr)

/-- FX07 `LD Vx, DT` (R184). -/
def execLdVxDT (x : Reg) (s : State) : Result := .next (s.setV x s.dt)

/-- FX0A `LD Vx, K` (R183): the lowest pressed key, or the same word again next step. -/
def execLdVxK (x : Reg) (s : State) : Result :=
  match s.firstKey with
  | some k => .next (s.setV x (BitVec.ofNat 8 k.val))
  | none => .next s.rewind

/-- FX15 `LD DT, Vx` (R185). -/
def execLdDTVx (x : Reg) (s : State) : Result := .next { s with dt := s.v[x] }

/-- FX18 `LD ST, Vx` (R186). -/
def execLdSTVx (x : Reg) (s : State) : Result := .next { s with st := s.v[x] }

end Sys2Proof.Machine
end

