-- ==== Sys2Proof/Machine/Fetch.lean ====
section
/-! DEFINITION. The parts of the cycle driver (40_cycle.md) that `step` puts together: fetch, dispatch of a decoded or
UNKNOWN word, and the tick; and where the next word is stored for a fetch. -/

namespace Sys2Proof.Machine

/-- Fetch (R91): both byte addresses checked, the word big-endian; out of range, the fault names the fetch address. -/
def fetch (s : State) : Except Fault Word :=
  match checkBlock s.params.memAddr s.pc.toNat 2 with
  | .ok [p, q] => .ok (wordOfBytes (s.readMem p) (s.readMem q))
  | _ => .error (.fetchRange s.pc)

/-- Dispatch of the latched word on the advanced state (R93, R201): an UNKNOWN word is reported and nothing runs. -/
def dispatch (w : Word) (s : State) : Result :=
  match decodeWord w with
  | .ok i => exec i s
  | .error _ => .next (s.report (.unknownOpcode w s.fetchAddr))

/-- The tick that ends every completed step (R94). -/
def thenTick : Result → Result
  | .next s => .next s.tick
  | .fault f => .fault f
  | .refused r => .refused r

/-- One step of a machine that runs (R90): fetch, advance, dispatch, tick. -/
def cycleDriver (s : State) : Result :=
  match fetch s with
  | .ok w => thenTick (dispatch w s.advance)
  | .error f => raiseFault f

/-- A place the fetch reaches: `PC` itself where both its bytes pass the check, else the entry point. -/
def fetchablePC (s : State) : Word :=
  match checkBlock s.params.memAddr s.pc.toNat 2 with
  | .ok _ => s.pc
  | .error _ => entryPoint

/-- Store the word's two bytes, big-endian, where the fetch at `PC` reads them (R52, R91). -/
def storeWord (s : State) (w : Word) : State :=
  match checkBlock s.params.memAddr s.pc.toNat 2 with
  | .ok ps => s.writeMem ps [w.extractLsb' 8 8, w.extractLsb' 0 8]
  | .error _ => s

/-- `s` about to fetch and run the word `w`: running, with `PC` in range and the word there. -/
def placeWord (s : State) (w : Word) : State :=
  storeWord { s with status := .running, pc := fetchablePC s } w

end Sys2Proof.Machine
end

