-- ==== Sys2Proof/Machine/Step.lean ====
section
/-! DEFINITION. One step (40_cycle.md R90, R96). -/

namespace Sys2Proof.Machine

/-- One invocation of the cycle driver. It is enabled only while `STATUS = Running`; a stopped machine answers the reason
it stopped for (R96). -/
def step (s : State) : Host.Outcome State Fault Refusal :=
  match s.status with
  | .running => cycleDriver s
  | .faulted f => .fault f
  | .refused r => .refused r

/-- `s` with the table word `w` (its bits above `nbits` zero) where the next step fetches it. `PC` moves to the entry
point only where the fetch at `PC` would fault, and a stopped machine is set running (log entry 10). -/
def State.withFetchWord (s : State) (nbits w : Nat) : State :=
  placeWord s (BitVec.ofNat 16 (w % 2 ^ nbits))

end Sys2Proof.Machine
end

