-- ==== Sys2Proof/Machine/HostPort.lean ====
section
/-! DEFINITION. The ports of the block (10_state.md R39) and what the host may do between steps (70_reset_and_hazards.md
R231 to R239). -/

namespace Sys2Proof.Machine

/-- The state after one invocation of `step`: a completed step's state, or the state before with `STATUS` set and nothing
else changed (R95, R204, R206). A machine that has stopped stays as it is (R96). -/
def State.afterStep (s : State) : State :=
  match step s with
  | .next t => t
  | .fault f => { s with status := .faulted f }
  | .refused r => { s with status := .refused r }

/-- `load(bytes)` (R234 to R236). -/
def State.load (s : State) (bytes : List Byte) : State :=
  if bytes.length > 3584 then s.report (.programTooLarge bytes.length)
  else (s.writeMem (List.range' 0x200 bytes.length) bytes).setPC entryPoint

/-- `key_set(k, b)` (R237). -/
def State.keySet (s : State) (k : Fin 16) (b : Bool) : State := { s with key := s.key.set k b }

/-- `reset` (R231): a fresh creation state with the same parameters. The draws go on from where they are, so that a draw
after a reset is as free as any (log entry 2). -/
def State.resetPort (s : State) : State := { State.create s.params with draws := s.draws }

/-- `fb_out` (R238): the 2048 bits, row-major, pixel `(x, y)` at `y*64 + x` (R33, D23). -/
def State.fbOut (s : State) : List Bool := s.fb.toList.flatMap Vector.toList

/-- `st_out` (R239). -/
def State.stOut (s : State) : Byte := s.st

/-- Whether the host should emit a tone (R239). -/
def State.tone (s : State) : Bool := s.stOut != 0

/-- `status_out` (R38, R39). -/
def State.statusOut (s : State) : Status := s.status

/-- What the host does between or by steps (R233): the writing ports of R39. The reading ports change nothing. -/
inductive HostMove where
  | step
  | load (bytes : List Byte)
  | keySet (k : Fin 16) (b : Bool)
  | reset
  deriving DecidableEq, Repr

/-- One move of the host. -/
def hostMove (s : State) : HostMove → State
  | .step => s.afterStep
  | .load bytes => s.load bytes
  | .keySet k b => s.keySet k b
  | .reset => s.resetPort

/-- A finite sequence of host moves. -/
def hostMoves (s : State) (ms : List HostMove) : State := ms.foldl hostMove s

end Sys2Proof.Machine
end

