-- ==== Sys2Proof/Safety.lean ====
section
/-! DEFINITION. What claims are stated in terms of: safe steps, the invariant, how a run ends (70_reset_and_hazards.md
R243), the frames of the instructions, and when two machines look alike to a program. -/

namespace Sys2Proof.Machine

/-! ### Steps and runs -/

/-- A step completes: it neither faults nor refuses. -/
def Completes (s : State) : Prop := ∃ t, step s = .next t

/-- `k` steps complete (R204: every claim about a run takes "no fault" as a premise). -/
def SafeRun (k : Nat) (s : State) : Prop := ∃ t, Sys2Proof.core.run k s = .next t

/-- The invariant of the model: memory is in canonical form, inside 0x000 to 0xFFF (R35, R50). The bounds of R42 on `SP`,
register numbers and coordinates are the types'. -/
def MemoryCanonical (s : State) : Prop := Memory.wf s.params.font s.mem = true

/-- R243 (a): the machine runs, and the word at `PC` is a jump to `PC`. -/
def Parked (s : State) : Prop :=
  s.status = .running ∧ ∃ w nnn, fetch s = .ok w ∧ decodeWord w = .ok (.jp nnn) ∧ zext12 nnn = s.pc

/-- R243 (b): the machine has stopped and is no finished run. -/
def Stopped (s : State) : Prop := s.status ≠ .running

/-- R183, R215: the machine runs, the word at `PC` is FX0A, and no key is pressed. -/
def WaitsForKey (s : State) : Prop :=
  s.status = .running ∧ (∃ w x, fetch s = .ok w ∧ decodeWord w = .ok (.ldVxK x)) ∧ ∀ k : Fin 16, s.key[k] = false

/-- Parameters under which no data stops a running machine: every out-of-range case follows its formula (R205). -/
def TotalParams (p : Params) : Prop :=
  p.memAddr = .wrap12 ∧ p.keyIndex = .mask4 ∧ p.fontIndex ≠ .fault ∧ p.vfDest = .flagLast

/-! ### Addresses (R53) -/

/-- The byte addresses `base` to `base + n - 1` all pass the check. -/
def BlockPasses (p : Params) (base n : Nat) : Prop := ∀ k, k < n → p.memAddr = .wrap12 ∨ base + k ≤ 0xFFF

/-- The cell that the passing byte address `base + k` names: itself where it is in range, else reduced mod 0x1000. -/
def physAddr (base k : Nat) : Nat := (base + k) % 0x1000

/-! ### Frames -/

/-- From `s` to `t`, `V[x]` becomes `b` and nothing else changes. -/
def OnlyRegWritten (s t : State) (x : Reg) (b : Byte) : Prop :=
  t = { s with v := t.v } ∧ t.v[x] = b ∧ ∀ r : Reg, r ≠ x → t.v[r] = s.v[r]

/-- From `s` to `t`, VF becomes the flag, `V[x]` the number `n` unless `x` is VF (R122), and nothing else changes. -/
def ResultAndFlagWritten (s t : State) (x : Reg) (n : Nat) (flag : Prop) : Prop :=
  t = { s with v := t.v } ∧ (x ≠ Reg.vF → (t.v[x]).toNat = n) ∧
  (flag → t.v[Reg.vF] = 1) ∧ (¬ flag → t.v[Reg.vF] = 0) ∧
  ∀ r : Reg, r ≠ x → r ≠ Reg.vF → t.v[r] = s.v[r]

/-- The general registers an instruction may write (R22). -/
def MayWriteReg : Instr → Reg → Prop
  | .ldImm x _, r | .addImm x _, r | .ldReg x _, r | .orReg x _, r | .andReg x _, r | .xorReg x _, r | .rnd x _, r
  | .ldVxDT x, r | .ldVxK x, r => r = x
  | .addReg x _, r | .subReg x _, r | .shr x _, r | .subnReg x _, r | .shl x _, r => r = x ∨ r = Reg.vF
  | .drw _ _ _, r => r = Reg.vF
  | .ldVxMem x, r => r ≤ x
  | _, _ => False

/-- A set sprite bit of the draw `DXYN` in state `s` falls on the pixel at column `px`, row `py` (R172). -/
def SpriteCovers (s : State) (x y : Reg) (n : Nibble) (px : Fin 64) (py : Fin 32) : Prop :=
  ∃ r c, r < n.toNat ∧ c < 8 ∧ (s.readMem (physAddr s.i.toNat r)).getLsbD (7 - c) = true ∧
    px.val = ((s.v[x]).toNat + c) % 64 ∧ py.val = ((s.v[y]).toNat + r) % 32

/-! ### What a program can see -/

/-- Two states that differ at most in what no instruction can observe: dead stack entries (R30), the sound timer (R32)
and the report stream (R202). -/
def Indistinguishable (s t : State) : Prop :=
  t = { s with stack := t.stack, st := t.st, reportOut := t.reportOut } ∧
  ∀ j : Fin 16, j.val < s.sp.val → t.stack[j] = s.stack[j]

end Sys2Proof.Machine
end

