-- ==== Sys2Proof/Certificates/Slice0/Obligations.lean ====
section
/-! DEFINITION. The statements for the provers. Each docstring names the rules of spec/ the statement formalises. -/

open Sys2Proof Sys2Proof.Machine

/-! ### Encoding (30_encoding.md) -/

/-- Every instruction's word decodes to it: no bit of an encoding is dropped (R71, R73). -/
def Obligations.DecodeInvertsEncode : Prop :=
  ∀ i : Instr, decodeWord (encode i) = .ok i

/-- A word that selects a routine is the encoding of the instruction it decodes to, so that no two words give one
instruction and the instruction carries its whole latched word (R73, R81). -/
def Obligations.EncodeInvertsDecode : Prop :=
  ∀ (w : Word) (i : Instr), decodeWord w = .ok i → encode i = w

/-- R74: for these eleven primary values the primary nibble alone selects the routine. The values of 2NNN, 4XNN, 5XY0, 7XNN,
ANNN and CXNN are the spec's general knowledge (GK1, log entry 7). -/
def Obligations.PrimarySelectorAloneDecides : Prop :=
  ∀ w : Word,
    (w.extractLsb' 12 4 = 0x1#4 → decodeWord w = .ok (.jp (w.extractLsb' 0 12))) ∧
    (w.extractLsb' 12 4 = 0x2#4 → decodeWord w = .ok (.call (w.extractLsb' 0 12))) ∧
    (w.extractLsb' 12 4 = 0x3#4 → decodeWord w = .ok (.seImm (w.extractLsb' 8 4).toFin (w.extractLsb' 0 8))) ∧
    (w.extractLsb' 12 4 = 0x4#4 → decodeWord w = .ok (.sneImm (w.extractLsb' 8 4).toFin (w.extractLsb' 0 8))) ∧
    (w.extractLsb' 12 4 = 0x5#4 →
      decodeWord w = .ok (.seReg (w.extractLsb' 8 4).toFin (w.extractLsb' 4 4).toFin (w.extractLsb' 0 4))) ∧
    (w.extractLsb' 12 4 = 0x6#4 → decodeWord w = .ok (.ldImm (w.extractLsb' 8 4).toFin (w.extractLsb' 0 8))) ∧
    (w.extractLsb' 12 4 = 0x7#4 → decodeWord w = .ok (.addImm (w.extractLsb' 8 4).toFin (w.extractLsb' 0 8))) ∧
    (w.extractLsb' 12 4 = 0xA#4 → decodeWord w = .ok (.ldI (w.extractLsb' 0 12))) ∧
    (w.extractLsb' 12 4 = 0xB#4 → decodeWord w = .ok (.jpV0 (w.extractLsb' 0 12))) ∧
    (w.extractLsb' 12 4 = 0xC#4 → decodeWord w = .ok (.rnd (w.extractLsb' 8 4).toFin (w.extractLsb' 0 8))) ∧
    (w.extractLsb' 12 4 = 0xD#4 →
      decodeWord w = .ok (.drw (w.extractLsb' 8 4).toFin (w.extractLsb' 4 4).toFin (w.extractLsb' 0 4)))

/-- R75 to R79: the sub-tables of primaries 0x0, 0x8, 0x9, 0xE and 0xF, an entry not listed being UNKNOWN. Which entry
carries which routine is for the most part the spec's general knowledge (GK1, log entry 7). -/
def Obligations.SubSelectorsDecide : Prop :=
  ∀ w : Word,
    let x : Reg := (w.extractLsb' 8 4).toFin
    let y : Reg := (w.extractLsb' 4 4).toFin
    let unknown : Except Reject Instr := .error (.unknown w)
    (w.extractLsb' 12 4 = 0x0#4 → decodeWord w =
      if w.extractLsb' 0 4 = 0x0#4 then .ok (.cls (w.extractLsb' 4 8))
      else if w.extractLsb' 0 4 = 0xE#4 then .ok (.ret (w.extractLsb' 4 8)) else unknown) ∧
    (w.extractLsb' 12 4 = 0x8#4 → decodeWord w =
      if w.extractLsb' 0 4 = 0x0#4 then .ok (.ldReg x y)
      else if w.extractLsb' 0 4 = 0x1#4 then .ok (.orReg x y)
      else if w.extractLsb' 0 4 = 0x2#4 then .ok (.andReg x y)
      else if w.extractLsb' 0 4 = 0x3#4 then .ok (.xorReg x y)
      else if w.extractLsb' 0 4 = 0x4#4 then .ok (.addReg x y)
      else if w.extractLsb' 0 4 = 0x5#4 then .ok (.subReg x y)
      else if w.extractLsb' 0 4 = 0x6#4 then .ok (.shr x y)
      else if w.extractLsb' 0 4 = 0x7#4 then .ok (.subnReg x y)
      else if w.extractLsb' 0 4 = 0xE#4 then .ok (.shl x y) else unknown) ∧
    (w.extractLsb' 12 4 = 0x9#4 → decodeWord w =
      if w.extractLsb' 0 4 = 0x0#4 then .ok (.sneReg x y) else unknown) ∧
    (w.extractLsb' 12 4 = 0xE#4 → decodeWord w =
      if w.extractLsb' 0 4 = 0xE#4 then .ok (.skp x (w.extractLsb' 4 4))
      else if w.extractLsb' 0 4 = 0x1#4 then .ok (.sknp x (w.extractLsb' 4 4)) else unknown) ∧
    (w.extractLsb' 12 4 = 0xF#4 → decodeWord w =
      if w.extractLsb' 0 8 = 0x07#8 then .ok (.ldVxDT x)
      else if w.extractLsb' 0 8 = 0x0A#8 then .ok (.ldVxK x)
      else if w.extractLsb' 0 8 = 0x15#8 then .ok (.ldDTVx x)
      else if w.extractLsb' 0 8 = 0x18#8 then .ok (.ldSTVx x)
      else if w.extractLsb' 0 8 = 0x1E#8 then .ok (.addIVx x)
      else if w.extractLsb' 0 8 = 0x29#8 then .ok (.ldFVx x)
      else if w.extractLsb' 0 8 = 0x33#8 then .ok (.ldBVx x)
      else if w.extractLsb' 0 8 = 0x55#8 then .ok (.ldMemVx x)
      else if w.extractLsb' 0 8 = 0x65#8 then .ok (.ldVxMem x) else unknown)

/-- R80, which the spec derives from R73 to R79: the UNKNOWN words, in full. -/
def Obligations.UnknownWordsInFull : Prop :=
  ∀ w : Word, (∃ r, decodeWord w = .error r) ↔
    (w.extractLsb' 12 4 = 0x0#4 ∧ w.extractLsb' 0 4 ∉ [0x0#4, 0xE#4]) ∨
    (w.extractLsb' 12 4 = 0x8#4 ∧ w.extractLsb' 0 4 ∈ [0x8#4, 0x9#4, 0xA#4, 0xB#4, 0xC#4, 0xD#4, 0xF#4]) ∨
    (w.extractLsb' 12 4 = 0x9#4 ∧ w.extractLsb' 0 4 ≠ 0x0#4) ∨
    (w.extractLsb' 12 4 = 0xE#4 ∧ w.extractLsb' 0 4 ∉ [0x1#4, 0xE#4]) ∨
    (w.extractLsb' 12 4 = 0xF#4 ∧
      w.extractLsb' 0 8 ∉ [0x07#8, 0x0A#8, 0x15#8, 0x18#8, 0x1E#8, 0x29#8, 0x33#8, 0x55#8, 0x65#8])

/-- R81: an instruction's word is in its row of the opcode table, in no other row, and a word in a row is never UNKNOWN. -/
def Obligations.OpcodeRowsArePairwiseDisjoint : Prop :=
  ∀ (w : Word) (j : Instr), w &&& j.row.mask = j.row.value ↔ ∃ i, decodeWord w = .ok i ∧ i.row = j.row

/-- R52, R70: a decoder consumes exactly two bytes, the first of them the word's high byte. -/
def Obligations.DecoderConsumesTwoBytesBigEndian : Prop :=
  ∀ (hi lo : Byte) (rest : List Byte) (i : Instr),
    decode (hi :: lo :: rest) = .ok (i, rest) ↔
      ∃ w : Word, w.toNat = hi.toNat * 256 + lo.toNat ∧ decodeWord w = .ok i

/-- Words written out from the spec's encodings (30_encoding.md R75 to R82, 95_test_vectors.md V-DEC) decode as it says. -/
def Obligations.SampleWordsDecode : Prop :=
  decodeWord 0x0ABE#16 = .ok (.ret 0xAB#8) ∧ decodeWord 0x6A02#16 = .ok (.ldImm 0xA 0x02#8) ∧
  decodeWord 0x1204#16 = .ok (.jp 0x204#12) ∧ decodeWord 0x5127#16 = .ok (.seReg 1 2 0x7#4) ∧
  decodeWord 0x81F6#16 = .ok (.shr 1 0xF) ∧ decodeWord 0xD125#16 = .ok (.drw 1 2 0x5#4) ∧
  decodeWord 0xE09F#16 = .error (.unknown 0xE09F#16) ∧ decodeWord 0xF165#16 = .ok (.ldVxMem 1)

/-! ### The cycle driver (40_cycle.md) -/

/-- R52, R91: the fetch reads the two bytes at `PC` and `PC + 1` big-endian, each address checked; under
`MEM_ADDR_POLICY = fault` a fetch at `PC ≥ 0xFFF` faults and the step ends there. -/
def Obligations.FetchReadsBigEndianOrFaults : Prop :=
  ∀ s : State,
    (BlockPasses s.params s.pc.toNat 2 → ∃ w, fetch s = .ok w ∧
      w.toNat = (s.readMem (physAddr s.pc.toNat 0)).toNat * 256 + (s.readMem (physAddr s.pc.toNat 1)).toNat) ∧
    (s.params.memAddr = .fault → s.pc.toNat ≥ 0xFFF → fetch s = .error (.fetchRange s.pc) ∧
      (s.status = .running → step s = .fault (.fetchRange s.pc)))

/-- R90, R92, R93, R94: a step of a running machine whose fetched word decodes to `i` is `exec i` with `PC` advanced by 2,
followed by the tick; a fault or refusal of the routine is the step's. -/
def Obligations.StepRunsTheDecodedInstruction : Prop :=
  ∀ (s : State) (w : Word) (i : Instr), s.status = .running → fetch s = .ok w → decodeWord w = .ok i →
    (∀ t, exec i { s with pc := s.pc + 2 } = .next t →
      step s = .next { t with dt := if t.dt = 0 then 0 else t.dt - 1, st := if t.st = 0 then 0 else t.st - 1 }) ∧
    (∀ f, exec i { s with pc := s.pc + 2 } = .fault f → step s = .fault f) ∧
    (∀ r, exec i { s with pc := s.pc + 2 } = .refused r → step s = .refused r)

/-- R201: an UNKNOWN word is reported with its fetch address; `PC` advances, the timers tick, nothing else changes. That the
tick runs in such a step is the spec's own decision D9 (R94, log entry 12). -/
def Obligations.UnknownWordIsReportedAndDoesNothing : Prop :=
  ∀ (s : State) (w : Word) (r : Reject), s.status = .running → fetch s = .ok w → decodeWord w = .error r →
    ∃ t, step s = .next t ∧
      t = { s with pc := t.pc, dt := t.dt, st := t.st, reportOut := s.reportOut ++ [.unknownOpcode w s.pc] } ∧
      t.pc = s.pc + 2 ∧ t.dt.toNat = s.dt.toNat - 1 ∧ t.st.toNat = s.st.toNat - 1

/-- R94, R97, R187: every completed step ends with one tick, which saturates at 0 and decrements the value FX15 or FX18
has just written. That it runs also on an UNKNOWN word and a failed CALL or RET is the spec's own decision D9, marked in R94
(90_conflicts.md C4, log entry 12). -/
def Obligations.TimersTickOnceEveryCompletedStep : Prop :=
  ∀ (s t : State) (w : Word), s.status = .running → fetch s = .ok w → step s = .next t →
    (∀ x, decodeWord w = .ok (.ldDTVx x) → t.dt.toNat = (s.v[x]).toNat - 1) ∧
    ((∀ x, decodeWord w ≠ .ok (.ldDTVx x)) → t.dt.toNat = s.dt.toNat - 1) ∧
    (∀ x, decodeWord w = .ok (.ldSTVx x) → t.st.toNat = (s.v[x]).toNat - 1) ∧
    ((∀ x, decodeWord w ≠ .ok (.ldSTVx x)) → t.st.toNat = s.st.toNat - 1)

/-- R25: how each instruction leaves `PC`, `a` being the fetch address. -/
def Obligations.ProgramCounterAfterEachInstruction : Prop :=
  ∀ (s t : State) (w : Word), s.status = .running → fetch s = .ok w → step s = .next t →
    let skips (c : Prop) : Prop := (c → t.pc = s.pc + 4) ∧ (¬ c → t.pc = s.pc + 2)
    match decodeWord w with
    | .ok (.jp nnn) => t.pc.toNat = nnn.toNat
    | .ok (.call nnn) => (s.sp.val < 16 → t.pc.toNat = nnn.toNat) ∧ (s.sp.val = 16 → t.pc = s.pc + 2)
    | .ok (.ret _) => (∀ j : Fin 16, s.sp.val = j.val + 1 → t.pc = s.stack[j]) ∧ (s.sp.val = 0 → t.pc = s.pc + 2)
    | .ok (.jpV0 nnn) => t.pc.toNat = nnn.toNat + (s.v[Reg.v0]).toNat
    | .ok (.seImm x nn) => skips (s.v[x] = nn)
    | .ok (.sneImm x nn) => skips (s.v[x] ≠ nn)
    | .ok (.seReg x y _) => skips (s.v[x] = s.v[y])
    | .ok (.sneReg x y) => skips (s.v[x] ≠ s.v[y])
    | .ok (.skp x _) => skips (s.key[Fin.ofNat 16 (s.v[x]).toNat] = true)
    | .ok (.sknp x _) => skips (s.key[Fin.ofNat 16 (s.v[x]).toNat] = false)
    | .ok (.ldVxK _) => ((∃ k : Fin 16, s.key[k] = true) → t.pc = s.pc + 2) ∧
        ((∀ k : Fin 16, s.key[k] = false) → t.pc = s.pc)
    | _ => t.pc = s.pc + 2

/-! ### Control transfer (41_flow.md) -/

/-- R104, R107 (with R77, R100): the skip on an equal immediate and the skip on unequal registers, which primary 0x9 gives
only for the low nibble 0; their whole effect. -/
def Obligations.SkipOnEqualImmediateOrUnequalRegisters : Prop :=
  ∀ (x y : Reg) (nn : Byte) (n : Nibble) (s : State),
    decodeWord (0x3#4 ++ Reg.nibble x ++ nn) = .ok (.seImm x nn) ∧
    decodeWord (0x9#4 ++ Reg.nibble x ++ Reg.nibble y ++ n) =
      (if n = 0 then .ok (.sneReg x y) else .error (.unknown (0x9#4 ++ Reg.nibble x ++ Reg.nibble y ++ n))) ∧
    exec (.seImm x nn) s = .next { s with pc := if s.v[x] = nn then s.pc + 2 else s.pc } ∧
    exec (.sneReg x y) s = .next { s with pc := if s.v[x] = s.v[y] then s.pc else s.pc + 2 }

/-- Their complements (R105, R106, 90_conflicts.md C3): 5XYn runs for every low nibble. The primary values 0x4 and 0x5 are
the spec's general knowledge (GK1, log entry 7). -/
def Obligations.SkipOnUnequalImmediateOrEqualRegisters : Prop :=
  ∀ (x y : Reg) (nn : Byte) (n : Nibble) (s : State),
    decodeWord (0x4#4 ++ Reg.nibble x ++ nn) = .ok (.sneImm x nn) ∧
    decodeWord (0x5#4 ++ Reg.nibble x ++ Reg.nibble y ++ n) = .ok (.seReg x y n) ∧
    exec (.sneImm x nn) s = .next { s with pc := if s.v[x] = nn then s.pc else s.pc + 2 } ∧
    exec (.seReg x y n) s = .next { s with pc := if s.v[x] = s.v[y] then s.pc + 2 else s.pc }

/-- R102, R108: the jumps set `PC` and nothing else; BNNN's target does not wrap. -/
def Obligations.JumpsSetOnlyPC : Prop :=
  ∀ (nnn : Imm12) (s : State),
    decodeWord (0x1#4 ++ nnn) = .ok (.jp nnn) ∧ decodeWord (0xB#4 ++ nnn) = .ok (.jpV0 nnn) ∧
    (∃ t, exec (.jp nnn) s = .next t ∧ t = { s with pc := t.pc } ∧ t.pc.toNat = nnn.toNat) ∧
    (∃ t, exec (.jpV0 nnn) s = .next t ∧ t = { s with pc := t.pc } ∧
      t.pc.toNat = nnn.toNat + (s.v[Reg.v0]).toNat)

/-- R103: CALL pushes the advanced `PC` and jumps; with 16 live entries it only reports. Its primary value and the
push-then-jump order are the spec's general knowledge (GK1, GK10, log entries 7 and 8). -/
def Obligations.CallPushesAndJumpsOrReports : Prop :=
  ∀ (nnn : Imm12) (s : State),
    decodeWord (0x2#4 ++ nnn) = .ok (.call nnn) ∧
    (∀ j : Fin 16, s.sp.val = j.val → ∃ t, exec (.call nnn) s = .next t ∧
      t = { s with stack := t.stack, sp := t.sp, pc := t.pc } ∧ t.sp.val = s.sp.val + 1 ∧ t.pc.toNat = nnn.toNat ∧
      t.stack[j] = s.pc ∧ ∀ k : Fin 16, k ≠ j → t.stack[k] = s.stack[k]) ∧
    (s.sp.val = 16 → exec (.call nnn) s =
      .next { s with reportOut := s.reportOut ++ [.stackOverflow (0x2#4 ++ nnn) (s.pc - 2)] })

/-- R101: RET pops into `PC`; with no live entry it only reports. Bits 11–4 are ignored (R75; the low nibble 0xE is the
spec's general knowledge, GK1, log entry 7). That the popped entry stays in place is the spec's own decision D19 (R30, log
entry 12). -/
def Obligations.RetPopsOrReports : Prop :=
  ∀ (ign : Byte) (s : State),
    decodeWord (0x0#4 ++ ign ++ 0xE#4) = .ok (.ret ign) ∧
    (∀ j : Fin 16, s.sp.val = j.val + 1 → ∃ t, exec (.ret ign) s = .next t ∧
      t = { s with sp := t.sp, pc := t.pc } ∧ t.sp.val = j.val ∧ t.pc = s.stack[j]) ∧
    (s.sp.val = 0 → exec (.ret ign) s =
      .next { s with reportOut := s.reportOut ++ [.stackUnderflow (0x0#4 ++ ign ++ 0xE#4) (s.pc - 2)] })

/-- R97, R103: a RET reached with the stack a CALL left resumes after that CALL, at the depth before it. -/
def Obligations.RetResumesAfterTheCall : Prop :=
  ∀ (nnn : Imm12) (ign : Byte) (s t u : State), s.sp.val < 16 → exec (.call nnn) s = .next t →
    u.stack = t.stack → u.sp = t.sp →
    ∃ r, exec (.ret ign) u = .next r ∧ r.pc = s.pc ∧ r.sp = s.sp

/-! ### The 8-bit ALU (42_alu.md) -/

/-- R123, R125: load immediate and copy, writing one register and no flag (the sub-selector of 8XY0 is the spec's general
knowledge, GK1, log entry 7). -/
def Obligations.LoadImmediateAndCopy : Prop :=
  ∀ (x y : Reg) (nn : Byte) (s : State),
    decodeWord (0x6#4 ++ Reg.nibble x ++ nn) = .ok (.ldImm x nn) ∧
    decodeWord (0x8#4 ++ Reg.nibble x ++ Reg.nibble y ++ 0x0#4) = .ok (.ldReg x y) ∧
    (∃ t, exec (.ldImm x nn) s = .next t ∧ OnlyRegWritten s t x nn) ∧
    (∃ t, exec (.ldReg x y) s = .next t ∧ OnlyRegWritten s t x s.v[y])

/-- The additions and logic that write no flag (R124, R126, R127, R128). That VF stays as it is, and the encodings, are the
spec's general knowledge (GK1, GK5, GK6, log entries 7 and 9). -/
def Obligations.AddImmediateAndLogicWriteNoFlag : Prop :=
  ∀ (x y : Reg) (nn : Byte) (s : State),
    decodeWord (0x7#4 ++ Reg.nibble x ++ nn) = .ok (.addImm x nn) ∧
    decodeWord (0x8#4 ++ Reg.nibble x ++ Reg.nibble y ++ 0x1#4) = .ok (.orReg x y) ∧
    decodeWord (0x8#4 ++ Reg.nibble x ++ Reg.nibble y ++ 0x2#4) = .ok (.andReg x y) ∧
    decodeWord (0x8#4 ++ Reg.nibble x ++ Reg.nibble y ++ 0x3#4) = .ok (.xorReg x y) ∧
    (∃ t, exec (.addImm x nn) s = .next t ∧ OnlyRegWritten s t x t.v[x] ∧
      (t.v[x]).toNat = ((s.v[x]).toNat + nn.toNat) % 256) ∧
    (∃ t, exec (.orReg x y) s = .next t ∧ OnlyRegWritten s t x t.v[x] ∧
      ∀ k, (t.v[x]).getLsbD k = ((s.v[x]).getLsbD k || (s.v[y]).getLsbD k)) ∧
    (∃ t, exec (.andReg x y) s = .next t ∧ OnlyRegWritten s t x t.v[x] ∧
      ∀ k, (t.v[x]).getLsbD k = ((s.v[x]).getLsbD k && (s.v[y]).getLsbD k)) ∧
    (∃ t, exec (.xorReg x y) s = .next t ∧ OnlyRegWritten s t x t.v[x] ∧
      ∀ k, (t.v[x]).getLsbD k = Bool.xor ((s.v[x]).getLsbD k) ((s.v[y]).getLsbD k))

/-- R129 (with R122): add with carry. What a form that names VF does is the parameter `VF_DEST_POLICY` (D6); the
sub-selector is the spec's general knowledge (GK1, log entry 7). -/
def Obligations.AddSetsCarry : Prop :=
  ∀ (x y : Reg) (s : State),
    let word : Word := 0x8#4 ++ Reg.nibble x ++ Reg.nibble y ++ 0x4#4
    decodeWord word = .ok (.addReg x y) ∧
    (s.params.vfDest = .flagLast ∨ (x ≠ Reg.vF ∧ y ≠ Reg.vF) → ∃ t, exec (.addReg x y) s = .next t ∧
      ResultAndFlagWritten s t x (((s.v[x]).toNat + (s.v[y]).toNat) % 256) ((s.v[x]).toNat + (s.v[y]).toNat > 255)) ∧
    (s.params.vfDest = .refuse → x = Reg.vF ∨ y = Reg.vF →
      exec (.addReg x y) s = .refused (.vfOperand word (s.pc - 2)))

/-- R130, R132 (with R122): subtract and reverse subtract, their flag a strict comparison (sub-selectors: GK1, log entry 7). -/
def Obligations.SubtractSetsStrictGreater : Prop :=
  ∀ (x y : Reg) (s : State),
    let sub : Word := 0x8#4 ++ Reg.nibble x ++ Reg.nibble y ++ 0x5#4
    let subn : Word := 0x8#4 ++ Reg.nibble x ++ Reg.nibble y ++ 0x7#4
    decodeWord sub = .ok (.subReg x y) ∧ decodeWord subn = .ok (.subnReg x y) ∧
    (s.params.vfDest = .flagLast ∨ (x ≠ Reg.vF ∧ y ≠ Reg.vF) →
      (∃ t, exec (.subReg x y) s = .next t ∧
        ResultAndFlagWritten s t x (((s.v[x]).toNat + 256 - (s.v[y]).toNat) % 256) ((s.v[x]).toNat > (s.v[y]).toNat)) ∧
      (∃ t, exec (.subnReg x y) s = .next t ∧
        ResultAndFlagWritten s t x (((s.v[y]).toNat + 256 - (s.v[x]).toNat) % 256) ((s.v[y]).toNat > (s.v[x]).toNat))) ∧
    (s.params.vfDest = .refuse → x = Reg.vF ∨ y = Reg.vF →
      exec (.subReg x y) s = .refused (.vfOperand sub (s.pc - 2)) ∧
      exec (.subnReg x y) s = .refused (.vfOperand subn (s.pc - 2)))

/-- R131, R133 (with R122): the shifts put the bit shifted out in VF and ignore `Y`, also for the refusal (sub-selectors:
GK1, log entry 7). -/
def Obligations.ShiftsSetTheBitShiftedOut : Prop :=
  ∀ (x y : Reg) (s : State),
    let shr : Word := 0x8#4 ++ Reg.nibble x ++ Reg.nibble y ++ 0x6#4
    let shl : Word := 0x8#4 ++ Reg.nibble x ++ Reg.nibble y ++ 0xE#4
    decodeWord shr = .ok (.shr x y) ∧ decodeWord shl = .ok (.shl x y) ∧
    (s.params.vfDest = .flagLast ∨ x ≠ Reg.vF →
      (∃ t, exec (.shr x y) s = .next t ∧
        ResultAndFlagWritten s t x ((s.v[x]).toNat / 2) ((s.v[x]).toNat % 2 = 1)) ∧
      (∃ t, exec (.shl x y) s = .next t ∧
        ResultAndFlagWritten s t x ((s.v[x]).toNat * 2 % 256) ((s.v[x]).toNat ≥ 128))) ∧
    (s.params.vfDest = .refuse → x = Reg.vF →
      exec (.shr x y) s = .refused (.vfOperand shr (s.pc - 2)) ∧
      exec (.shl x y) s = .refused (.vfOperand shl (s.pc - 2)))

/-- R134, R98: RND takes one fresh free byte, which is masked; a mask of 0 gives 0 and a mask of 0xFF the draw itself. It
holds whatever byte is drawn (log entry 2). The primary value is the spec's general knowledge (GK1, log entry 7). -/
def Obligations.RandomByteUnderMask : Prop :=
  ∀ (x : Reg) (nn : Byte) (s : State),
    decodeWord (0xC#4 ++ Reg.nibble x ++ nn) = .ok (.rnd x nn) ∧
    ∃ t, exec (.rnd x nn) s = .next t ∧ t = { s with v := t.v, draws := s.draws + 1 } ∧
      (∀ k, (t.v[x]).getLsbD k = ((Config.draw8 s.draws).getLsbD k && nn.getLsbD k)) ∧
      (nn = 0x00#8 → t.v[x] = 0) ∧ (nn = 0xFF#8 → t.v[x] = Config.draw8 s.draws) ∧
      ∀ r : Reg, r ≠ x → t.v[r] = s.v[r]

/-- R22: a completed step writes no general register but those its instruction names, or VF for the flag writers. -/
def Obligations.OnlyNamedRegistersAreWritten : Prop :=
  ∀ (s t : State) (w : Word) (r : Reg), s.status = .running → fetch s = .ok w → step s = .next t →
    t.v[r] ≠ s.v[r] → ∃ i, decodeWord w = .ok i ∧ MayWriteReg i r

/-! ### Index register and memory blocks (43_index_memory.md) -/

/-- R151, R152: ANNN and FX1E write `I` and nothing else; FX1E wraps mod 2^16. The set-index semantics, the encodings and
that FX1E sets no flag are the spec's general knowledge (GK1, GK7, GK8, log entries 7, 8 and 9). -/
def Obligations.SetAndAddIndex : Prop :=
  ∀ (nnn : Imm12) (x : Reg) (s : State),
    decodeWord (0xA#4 ++ nnn) = .ok (.ldI nnn) ∧ decodeWord (0xF#4 ++ Reg.nibble x ++ 0x1E#8) = .ok (.addIVx x) ∧
    (∃ t, exec (.ldI nnn) s = .next t ∧ t = { s with i := t.i } ∧ t.i.toNat = nnn.toNat) ∧
    (∃ t, exec (.addIVx x) s = .next t ∧ t = { s with i := t.i } ∧
      t.i.toNat = (s.i.toNat + (s.v[x]).toNat) % 65536)

/-- R153: FX29 under each of the three policies. -/
def Obligations.FontIndexUnderEachPolicy : Prop :=
  ∀ (x : Reg) (s : State),
    let word : Word := 0xF#4 ++ Reg.nibble x ++ 0x29#8
    let d := (s.v[x]).toNat
    decodeWord word = .ok (.ldFVx x) ∧
    (s.params.fontIndex = .formula ∨ d ≤ 15 → ∃ t, exec (.ldFVx x) s = .next t ∧ t = { s with i := t.i } ∧
      t.i.toNat = 0x050 + 5 * d) ∧
    (s.params.fontIndex = .mask4 → ∃ t, exec (.ldFVx x) s = .next t ∧ t = { s with i := t.i } ∧
      t.i.toNat = 0x050 + 5 * (d % 16)) ∧
    (s.params.fontIndex = .fault → d > 15 → exec (.ldFVx x) s = .fault (.fontRange word (s.pc - 2)))

/-- R154 (with R53): FX33 stores the three decimal digits at `I`, `I + 1`, `I + 2` and changes nothing else; if an
address fails the check nothing is written. That it stores below 0x200 too is the spec's own decision D8 (R59, log entry 12). -/
def Obligations.DecimalDigitsAreStored : Prop :=
  ∀ (x : Reg) (s : State), MemoryCanonical s →
    let word : Word := 0xF#4 ++ Reg.nibble x ++ 0x33#8
    let d := (s.v[x]).toNat
    let I := s.i.toNat
    decodeWord word = .ok (.ldBVx x) ∧
    (BlockPasses s.params I 3 → ∃ t, exec (.ldBVx x) s = .next t ∧ t = { s with mem := t.mem } ∧
      (t.readMem (physAddr I 0)).toNat = d / 100 ∧ (t.readMem (physAddr I 1)).toNat = d / 10 % 10 ∧
      (t.readMem (physAddr I 2)).toNat = d % 10 ∧
      ∀ a, (∀ k, k < 3 → a ≠ physAddr I k) → t.readMem a = s.readMem a) ∧
    (s.params.memAddr = .fault → I + 2 > 0xFFF →
      exec (.ldBVx x) s = .fault (.memRange word (s.pc - 2) (max I 0x1000)))

/-- R155 (with R53): FX55 stores V0 to VX at `I` on and changes nothing else; if an address fails the check nothing is
written. That it stores below 0x200 too is the spec's own decision D8 (R59, log entry 12). -/
def Obligations.RegistersAreStored : Prop :=
  ∀ (x : Reg) (s : State), MemoryCanonical s →
    let word : Word := 0xF#4 ++ Reg.nibble x ++ 0x55#8
    let I := s.i.toNat
    decodeWord word = .ok (.ldMemVx x) ∧
    (BlockPasses s.params I (x.val + 1) → ∃ t, exec (.ldMemVx x) s = .next t ∧ t = { s with mem := t.mem } ∧
      (∀ r : Reg, r ≤ x → t.readMem (physAddr I r.val) = s.v[r]) ∧
      ∀ a, (∀ r : Reg, r ≤ x → a ≠ physAddr I r.val) → t.readMem a = s.readMem a) ∧
    (s.params.memAddr = .fault → I + x.val > 0xFFF →
      exec (.ldMemVx x) s = .fault (.memRange word (s.pc - 2) (max I 0x1000)))

/-- R156 (with R53): FX65 loads V0 to VX from `I` on and changes nothing else; if an address fails the check no register
is written. -/
def Obligations.RegistersAreLoaded : Prop :=
  ∀ (x : Reg) (s : State),
    let word : Word := 0xF#4 ++ Reg.nibble x ++ 0x65#8
    let I := s.i.toNat
    decodeWord word = .ok (.ldVxMem x) ∧
    (BlockPasses s.params I (x.val + 1) → ∃ t, exec (.ldVxMem x) s = .next t ∧ t = { s with v := t.v } ∧
      (∀ r : Reg, r ≤ x → t.v[r] = s.readMem (physAddr I r.val)) ∧ ∀ r : Reg, ¬ r ≤ x → t.v[r] = s.v[r]) ∧
    (s.params.memAddr = .fault → I + x.val > 0xFFF →
      exec (.ldVxMem x) s = .fault (.memRange word (s.pc - 2) (max I 0x1000)))

/-- R157: `I` is written only by ANNN, FX1E and FX29, and only FX1E can take it above 0xFFF. -/
def Obligations.IndexWrittenOnlyByItsWriters : Prop :=
  ∀ (s t : State) (w : Word), s.status = .running → fetch s = .ok w → step s = .next t → t.i ≠ s.i →
    (∃ nnn, decodeWord w = .ok (.ldI nnn) ∧ t.i.toNat ≤ 0xFFF) ∨
    (∃ x, decodeWord w = .ok (.ldFVx x) ∧ t.i.toNat ≤ 0x54B) ∨
    (∃ x, decodeWord w = .ok (.addIVx x))

/-- R29: only CALL and RET move `SP`, by one up and one down. -/
def Obligations.StackPointerMovesOnlyByCallAndRet : Prop :=
  ∀ (s t : State) (w : Word), s.status = .running → fetch s = .ok w → step s = .next t → t.sp ≠ s.sp →
    (∃ nnn, decodeWord w = .ok (.call nnn) ∧ t.sp.val = s.sp.val + 1) ∨
    (∃ ign, decodeWord w = .ok (.ret ign) ∧ t.sp.val + 1 = s.sp.val)

/-- R65: the fetch of the very next step sees a store: FX55 over the two bytes after itself is what runs next. -/
def Obligations.FetchSeesTheStoreBefore : Prop :=
  ∀ (x : Reg) (s t : State), MemoryCanonical s → 1 ≤ x.val → s.i = s.pc → exec (.ldMemVx x) s = .next t →
    fetch t = .ok (s.v[Reg.v0] ++ s.v[(1 : Reg)])

/-! ### The framebuffer (44_display.md) -/

/-- R171: CLS clears every pixel and changes nothing else, whatever bits 11–4 hold. Its semantics and encoding are the spec's
general knowledge (GK1, GK2, log entries 7 and 8). -/
def Obligations.ClearScreen : Prop :=
  ∀ (ign : Byte) (s : State),
    decodeWord (0x0#4 ++ ign ++ 0x0#4) = .ok (.cls ign) ∧
    ∃ t, exec (.cls ign) s = .next t ∧ t = { s with fb := t.fb } ∧ ∀ (px : Fin 64) (py : Fin 32), t.fb[py][px] = false

/-- R172 (with R53): DRW in closed form. A pixel changes exactly if a set sprite bit falls on it, VF is 1 exactly if such
a pixel was set, nothing else changes; if an address fails the check nothing changes at all. That the coordinates are those
before VF is reset is the spec's own decision D7, stated in R172 (log entry 12). -/
def Obligations.DrawXorsTheSprite : Prop :=
  ∀ (x y : Reg) (n : Nibble) (s : State),
    let word : Word := 0xD#4 ++ Reg.nibble x ++ Reg.nibble y ++ n
    let I := s.i.toNat
    decodeWord word = .ok (.drw x y n) ∧
    (BlockPasses s.params I n.toNat → ∃ t, exec (.drw x y n) s = .next t ∧ t = { s with v := t.v, fb := t.fb } ∧
      (∀ (px : Fin 64) (py : Fin 32), t.fb[py][px] ≠ s.fb[py][px] ↔ SpriteCovers s x y n px py) ∧
      ((∃ (px : Fin 64) (py : Fin 32), s.fb[py][px] = true ∧ SpriteCovers s x y n px py) → t.v[Reg.vF] = 1) ∧
      ((∀ (px : Fin 64) (py : Fin 32), SpriteCovers s x y n px py → s.fb[py][px] = false) → t.v[Reg.vF] = 0) ∧
      ∀ r : Reg, r ≠ Reg.vF → t.v[r] = s.v[r]) ∧
    (s.params.memAddr = .fault → 1 ≤ n.toNat → I + n.toNat - 1 > 0xFFF →
      exec (.drw x y n) s = .fault (.memRange word (s.pc - 2) (max I 0x1000)))

/-- 95_test_vectors.md S4: the same sprite drawn twice at the same coordinates restores the framebuffer, and from a blank
framebuffer the second draw of a sprite with a set bit reports the collision. -/
def Obligations.DrawingTwiceRestores : Prop :=
  ∀ (x y : Reg) (n : Nibble) (s t u : State), exec (.drw x y n) s = .next t → t.v[x] = s.v[x] → t.v[y] = s.v[y] →
    exec (.drw x y n) t = .next u →
    u.fb = s.fb ∧
    ((∀ (px : Fin 64) (py : Fin 32), s.fb[py][px] = false) → (∃ px py, SpriteCovers s x y n px py) →
      t.v[Reg.vF] = 0 ∧ u.v[Reg.vF] = 1)

/-- R170: apart from reset, the pixels change only in a step that runs CLS or DRW. -/
def Obligations.FramebufferWrittenOnlyByClsAndDrw : Prop :=
  ∀ (s : State) (m : HostMove), m ≠ .reset → (hostMove s m).fb ≠ s.fb →
    m = .step ∧ ∃ w, fetch s = .ok w ∧
      ((∃ ign, decodeWord w = .ok (.cls ign)) ∨ ∃ x y n, decodeWord w = .ok (.drw x y n))

/-! ### Keypad and timers (45_keys_timers.md) -/

/-- R180, R181, R182 (with R100): the key skips, bits 7–4 ignored, under both key-index policies (the low nibbles 0xE and 0x1
are the spec's general knowledge, GK1, log entry 7). -/
def Obligations.SkipOnKey : Prop :=
  ∀ (x : Reg) (ign : Nibble) (s : State),
    let skp : Word := 0xE#4 ++ Reg.nibble x ++ ign ++ 0xE#4
    let sknp : Word := 0xE#4 ++ Reg.nibble x ++ ign ++ 0x1#4
    let k : Fin 16 := Fin.ofNat 16 (s.v[x]).toNat
    decodeWord skp = .ok (.skp x ign) ∧ decodeWord sknp = .ok (.sknp x ign) ∧
    (s.params.keyIndex = .mask4 ∨ (s.v[x]).toNat ≤ 15 →
      exec (.skp x ign) s = .next { s with pc := if s.key[k] = true then s.pc + 2 else s.pc } ∧
      exec (.sknp x ign) s = .next { s with pc := if s.key[k] = true then s.pc else s.pc + 2 }) ∧
    (s.params.keyIndex = .fault → (s.v[x]).toNat > 15 →
      exec (.skp x ign) s = .fault (.keyRange skp (s.pc - 2)) ∧
      exec (.sknp x ign) s = .fault (.keyRange sknp (s.pc - 2)))

/-- R183: FX0A takes the pressed key of lowest index; with none pressed it rewinds `PC` and changes nothing else. That a key
already held ends the wait, with no release, is the spec's own decision D20, marked in R183 (log entry 12). -/
def Obligations.WaitForKeyTakesTheLowest : Prop :=
  ∀ (x : Reg) (s : State),
    decodeWord (0xF#4 ++ Reg.nibble x ++ 0x0A#8) = .ok (.ldVxK x) ∧
    (∀ k : Fin 16, s.key[k] = true → (∀ j : Fin 16, j < k → s.key[j] = false) →
      ∃ t, exec (.ldVxK x) s = .next t ∧ OnlyRegWritten s t x t.v[x] ∧ (t.v[x]).toNat = k.val) ∧
    ((∀ k : Fin 16, s.key[k] = false) → exec (.ldVxK x) s = .next { s with pc := s.pc - 2 })

/-- R184, R185, R186: the timer moves, and the timers at the end of a step that runs them (R97). Semantics and encodings are
the spec's general knowledge (GK1, GK9, log entries 7 and 8). -/
def Obligations.TimersAreReadAndSet : Prop :=
  ∀ (x : Reg) (s : State),
    decodeWord (0xF#4 ++ Reg.nibble x ++ 0x07#8) = .ok (.ldVxDT x) ∧
    decodeWord (0xF#4 ++ Reg.nibble x ++ 0x15#8) = .ok (.ldDTVx x) ∧
    decodeWord (0xF#4 ++ Reg.nibble x ++ 0x18#8) = .ok (.ldSTVx x) ∧
    (∃ t, exec (.ldVxDT x) s = .next t ∧ OnlyRegWritten s t x s.dt ∧ t.tick.dt.toNat = s.dt.toNat - 1) ∧
    (∃ t, exec (.ldDTVx x) s = .next t ∧ t = { s with dt := s.v[x] } ∧ t.tick.dt.toNat = (s.v[x]).toNat - 1) ∧
    (∃ t, exec (.ldSTVx x) s = .next t ∧ t = { s with st := s.v[x] } ∧ t.tick.st.toNat = (s.v[x]).toNat - 1)

/-- `key_set` sets the one key it names and nothing else (R237); no step and no load writes the keypad (R34, R234). That no
move writes the parameters of R7 is the model's choice to keep them in State (log entry 1). -/
def Obligations.KeypadWrittenOnlyByTheHost : Prop :=
  ∀ (s : State) (m : HostMove),
    (hostMove s m).params = s.params ∧
    ((hostMove s m).key ≠ s.key → m = .reset ∨ ∃ k b, m = .keySet k b) ∧
    ∀ (k : Fin 16) (b : Bool), ∃ t, hostMove s (.keySet k b) = t ∧ t = { s with key := t.key } ∧
      ∀ j : Fin 16, t.key[j] = if j = k then b else s.key[j]

/-- R183, R215: a machine that waits for a key stays at its word for any number of steps; only the timers change, and they
count down. -/
def Obligations.KeyWaitBlocksTheMachine : Prop :=
  ∀ (s : State) (k : Nat), WaitsForKey s →
    ∃ t, Sys2Proof.core.run k s = .next t ∧ WaitsForKey t ∧ t = { s with dt := t.dt, st := t.st } ∧
      t.dt.toNat = s.dt.toNat - k ∧ t.st.toNat = s.st.toNat - k

/-! ### Errors, faults and refusals (60_exceptions.md) -/

/-- R202, R203: a completed step appends at most one record to the report stream, for the cause the table of R200 gives,
with the word and its fetch address. -/
def Obligations.StepEmitsAtMostOneReport : Prop :=
  ∀ (s t : State) (w : Word), s.status = .running → fetch s = .ok w → step s = .next t →
    t.reportOut = s.reportOut ∨
    (t.reportOut = s.reportOut ++ [.unknownOpcode w s.pc] ∧ ∃ r, decodeWord w = .error r) ∨
    (t.reportOut = s.reportOut ++ [.stackUnderflow w s.pc] ∧ s.sp.val = 0 ∧ ∃ ign, decodeWord w = .ok (.ret ign)) ∨
    (t.reportOut = s.reportOut ++ [.stackOverflow w s.pc] ∧ s.sp.val = 16 ∧ ∃ nnn, decodeWord w = .ok (.call nnn))

/-- R200, R205: a running machine faults only for the four named causes, each under its policy, and the record names the
word and its fetch address. -/
def Obligations.FaultsHaveTheirNamedCauses : Prop :=
  ∀ (s : State) (f : Fault), s.status = .running → step s = .fault f →
    (f = .fetchRange s.pc ∧ s.params.memAddr = .fault ∧ s.pc.toNat ≥ 0xFFF) ∨
    ∃ w, fetch s = .ok w ∧
      ((f = .memRange w s.pc (max s.i.toNat 0x1000) ∧ s.params.memAddr = .fault ∧
          ((∃ x y n, decodeWord w = .ok (.drw x y n) ∧ 1 ≤ n.toNat ∧ s.i.toNat + n.toNat - 1 > 0xFFF) ∨
           (∃ x, decodeWord w = .ok (.ldBVx x) ∧ s.i.toNat + 2 > 0xFFF) ∨
           (∃ x, (decodeWord w = .ok (.ldMemVx x) ∨ decodeWord w = .ok (.ldVxMem x)) ∧ s.i.toNat + x.val > 0xFFF))) ∨
       (f = .keyRange w s.pc ∧ s.params.keyIndex = .fault ∧
          ∃ x ign, (decodeWord w = .ok (.skp x ign) ∨ decodeWord w = .ok (.sknp x ign)) ∧ (s.v[x]).toNat > 15) ∨
       (f = .fontRange w s.pc ∧ s.params.fontIndex = .fault ∧
          ∃ x, decodeWord w = .ok (.ldFVx x) ∧ (s.v[x]).toNat > 15))

/-- R200, R206: a running machine refuses only a flag-writing ALU form that names VF, under `VF_DEST_POLICY = refuse`. No
instruction is refused as not modelled. -/
def Obligations.RefusalsAriseOnlyFromVfOperands : Prop :=
  ∀ (s : State) (r : Refusal), s.status = .running → step s = .refused r →
    s.params.vfDest = .refuse ∧ ∃ w, fetch s = .ok w ∧ r = .vfOperand w s.pc ∧
      ((∃ x y, (decodeWord w = .ok (.addReg x y) ∨ decodeWord w = .ok (.subReg x y) ∨ decodeWord w = .ok (.subnReg x y)) ∧
          (x = Reg.vF ∨ y = Reg.vF)) ∨
       (∃ x y, (decodeWord w = .ok (.shr x y) ∨ decodeWord w = .ok (.shl x y)) ∧ x = Reg.vF))

/-- A step that stops changes only `STATUS` (R95, R204, R206); then nothing but reset clears the status, which reset sets
running (R204, R206, R231). R96 says that no step of a stopped machine is enabled; that `step` then answers the reason
again is the model's choice of form (log entry 11). -/
def Obligations.StoppingIsKeptUntilReset : Prop :=
  ∀ (s : State) (ms : List HostMove), s.status = .running → .reset ∉ ms →
    (∀ f, step s = .fault f → s.afterStep = { s with status := .faulted f } ∧
      (hostMoves s.afterStep ms).status = .faulted f ∧ step (hostMoves s.afterStep ms) = .fault f) ∧
    (∀ r, step s = .refused r → s.afterStep = { s with status := .refused r } ∧
      (hostMoves s.afterStep ms).status = .refused r ∧ step (hostMoves s.afterStep ms) = .refused r) ∧
    (hostMove (hostMoves s.afterStep ms) .reset).status = .running

/-- R205: where every policy is one of the alternatives that raise nothing, a running machine never stops: it completes
any number of steps, whatever its memory holds. -/
def Obligations.TotalPoliciesNeverStop : Prop :=
  ∀ (s : State) (k : Nat), s.status = .running → TotalParams s.params → SafeRun k s

/-! ### Invariants -/

/-- R40, R230, R231: the creation state and the state after the `reset` port, from any state; memory read byte by byte. The
font is the parameter `FONT` (R41), whatever its bytes. That the port equals creation is the spec's own decision D22, marked
in R231 (log entry 14). -/
def Obligations.ResetStateValues : Prop :=
  ∀ s t : State, t = State.reset ∨ t = hostMove s .reset →
    (∀ r : Reg, t.v[r] = 0) ∧ t.i = 0 ∧ t.pc = 0x200#16 ∧ t.sp.val = 0 ∧ (∀ j : Fin 16, t.stack[j] = 0) ∧
    t.dt = 0 ∧ t.st = 0 ∧ (∀ (px : Fin 64) (py : Fin 32), t.fb[py][px] = false) ∧
    (∀ k : Fin 16, t.key[k] = false) ∧ t.status = .running ∧
    (∀ j : Fin 80, t.readMem (0x050 + j.val) = t.params.font[j]) ∧
    (∀ a, a < 0x050 ∨ 0x09F < a → t.readMem a = 0)

/-- The reset state meets the invariant, under every choice of the parameters. -/
def Obligations.ResetMeetsTheInvariant : Prop :=
  MemoryCanonical State.reset ∧ ∀ p : Params, MemoryCanonical (State.create p)

/-- Every completed step of a state in canonical form leaves a state in canonical form. -/
def Obligations.EveryStepKeepsTheInvariant : Prop :=
  ∀ s t : State, MemoryCanonical s → step s = .next t → MemoryCanonical t

/-- Every sequence of host moves (steps, loads, key changes, resets) keeps the canonical form. -/
def Obligations.HostMovesKeepTheInvariant : Prop :=
  ∀ (s : State) (ms : List HostMove), MemoryCanonical s → MemoryCanonical (hostMoves s ms)

/-- R56: a byte written is read back until another write to its address; every other cell keeps its value. -/
def Obligations.StoredBytesAreReadBack : Prop :=
  ∀ (s : State) (a a' : Nat) (b b' : Byte), MemoryCanonical s → a ≤ 0xFFF → a' ≤ 0xFFF →
    let t := (s.writeMem [a] [b]).writeMem [a'] [b']
    t.readMem a' = b' ∧ (a ≠ a' → t.readMem a = b) ∧ ∀ c, c ≠ a → c ≠ a' → t.readMem c = s.readMem c

/-- Memories in canonical form that read alike everywhere are the same data. -/
def Obligations.CanonicalMemoriesAreEqual : Prop :=
  ∀ (font : Font) (m m' : Memory), Memory.wf font m = true → Memory.wf font m' = true →
    (∀ a, a ≤ 0xFFF → Memory.read font m a = Memory.read font m' a) → m = m'

/-! ### Host operations and whole-machine rules (70_reset_and_hazards.md) -/

/-- R234, R235, R236: load copies its bytes to 0x200 on and sets `PC`; a longer one than 3584 bytes only reports. That it
changes nothing else, from any state between steps, is the spec's own decision D15, marked in R234 and R236 (log entry 12). -/
def Obligations.LoadCopiesOrReports : Prop :=
  ∀ (s : State) (bytes : List Byte), MemoryCanonical s →
    (bytes.length ≤ 3584 → s.load bytes = { s with mem := (s.load bytes).mem, pc := 0x200#16 } ∧
      (∀ j (h : j < bytes.length), (s.load bytes).readMem (0x200 + j) = bytes[j]) ∧
      ∀ a, a < 0x200 ∨ 0x200 + bytes.length ≤ a → (s.load bytes).readMem a = s.readMem a) ∧
    (bytes.length > 3584 →
      s.load bytes = { s with reportOut := s.reportOut ++ [.programTooLarge bytes.length] })

/-- `fb_out` is the 2048 bits of `FB` (R238). The index `y*64 + x` is R33's, which marks it as the spec's own decision D23
(log entry 12). -/
def Obligations.FramebufferPortIsRowMajor : Prop :=
  ∀ s : State, s.fbOut.length = 2048 ∧
    ∀ (px : Fin 64) (py : Fin 32), s.fbOut[py.val * 64 + px.val]? = some s.fb[py][px]

/-- R243 (a): a parked machine completes any number of steps and stays parked; only the timers change, and they count
down to 0. -/
def Obligations.ParkedMachineOnlyCountsDown : Prop :=
  ∀ (s : State) (k : Nat), Parked s →
    ∃ t, Sys2Proof.core.run k s = .next t ∧ Parked t ∧ t = { s with dt := t.dt, st := t.st } ∧
      t.dt.toNat = s.dt.toNat - k ∧ t.st.toNat = s.st.toNat - k

/-- R30, R32, R202: dead stack entries, the sound timer and the report stream are invisible to programs: two machines
that differ in nothing else step alike and stay so. They have drawn equally often, so a CXNN gives both the same free
byte (the model's form, log entry 2). -/
def Obligations.HiddenStateIsNeverObserved : Prop :=
  ∀ s s' : State, Indistinguishable s s' →
    (∀ t, step s = .next t → ∃ t', step s' = .next t' ∧ Indistinguishable t t') ∧
    (∀ f, step s = .fault f → step s' = .fault f) ∧
    (∀ r, step s = .refused r → step s' = .refused r)

/-- The placed word is the one the next step runs: the fetch after `withFetchWord` reads it, from any state in canonical
form (log entry 10). -/
def Obligations.PlacedWordIsFetched : Prop :=
  ∀ (s : State) (w : Word), MemoryCanonical s →
    (s.withFetchWord 16 w.toNat).status = .running ∧ fetch (s.withFetchWord 16 w.toNat) = .ok w
end

