-- ==== Sys2Proof/Laws/Decode.lean ====
section
/-! SUPPORT. The bit fields of a concatenated word, one lemma per field and format (30_encoding.md R71). -/

namespace Sys2Proof

/-- A concatenation as a number. -/
theorem toNat_concat {n m : Nat} (a : BitVec n) (b : BitVec m) : (a ++ b).toNat = a.toNat * 2 ^ m + b.toNat := by
  rw [BitVec.toNat_append, ← Nat.shiftLeft_add_eq_or_of_lt b.isLt, Nat.shiftLeft_eq]

/-- A bit field as a number. -/
theorem toNat_field {n : Nat} (w : BitVec n) (lo len : Nat) :
    (w.extractLsb' lo len).toNat = w.toNat / 2 ^ lo % 2 ^ len := by
  rw [BitVec.extractLsb'_toNat, Nat.shiftRight_eq_div_pow]

@[simp] theorem Reg.toFin_nibble (r : Reg) : (Reg.nibble r).toFin = r := rfl

@[simp] theorem Reg.nibble_toFin (b : Nibble) : Reg.nibble b.toFin = b := rfl

theorem Reg.toNat_nibble (r : Reg) : (Reg.nibble r).toNat = r.val := rfl

section Format
variable (p x y n : Nibble) (nn : Byte) (nnn : Imm12)

/-! ### Format A -/

theorem primary_formatA : primary (p ++ nnn : Word) = p := by
  apply BitVec.eq_of_toNat_eq; simp only [primary, toNat_field, toNat_concat]; omega

theorem immNNN_formatA : immNNN (p ++ nnn : Word) = nnn := by
  apply BitVec.eq_of_toNat_eq; simp only [immNNN, toNat_field, toNat_concat]; omega

/-! ### Formats XNN and XF -/

theorem primary_formatXNN : primary (p ++ x ++ nn : Word) = p := by
  apply BitVec.eq_of_toNat_eq; simp only [primary, toNat_field, toNat_concat]; omega

theorem regX_formatXNN : regX (p ++ x ++ nn : Word) = x.toFin := by
  refine congrArg BitVec.toFin (BitVec.eq_of_toNat_eq ?_); simp only [toNat_field, toNat_concat]; omega

theorem immNN_formatXNN : immNN (p ++ x ++ nn : Word) = nn := by
  apply BitVec.eq_of_toNat_eq; simp only [immNN, toNat_field, toNat_concat]; omega

/-! ### Formats XY, XYN and XE -/

theorem primary_formatXYN : primary (p ++ x ++ y ++ n : Word) = p := by
  apply BitVec.eq_of_toNat_eq; simp only [primary, toNat_field, toNat_concat]; omega

theorem regX_formatXYN : regX (p ++ x ++ y ++ n : Word) = x.toFin := by
  refine congrArg BitVec.toFin (BitVec.eq_of_toNat_eq ?_); simp only [toNat_field, toNat_concat]; omega

theorem regY_formatXYN : regY (p ++ x ++ y ++ n : Word) = y.toFin := by
  refine congrArg BitVec.toFin (BitVec.eq_of_toNat_eq ?_); simp only [toNat_field, toNat_concat]; omega

theorem ignoredXE_formatXYN : ignoredXE (p ++ x ++ y ++ n : Word) = y := by
  apply BitVec.eq_of_toNat_eq; simp only [ignoredXE, toNat_field, toNat_concat]; omega

theorem immN_formatXYN : immN (p ++ x ++ y ++ n : Word) = n := by
  apply BitVec.eq_of_toNat_eq; simp only [immN, toNat_field, toNat_concat]; omega

/-! ### Format S0 -/

theorem primary_formatS0 : primary (p ++ nn ++ n : Word) = p := by
  apply BitVec.eq_of_toNat_eq; simp only [primary, toNat_field, toNat_concat]; omega

theorem ignoredS0_formatS0 : ignoredS0 (p ++ nn ++ n : Word) = nn := by
  apply BitVec.eq_of_toNat_eq; simp only [ignoredS0, toNat_field, toNat_concat]; omega

theorem immN_formatS0 : immN (p ++ nn ++ n : Word) = n := by
  apply BitVec.eq_of_toNat_eq; simp only [immN, toNat_field, toNat_concat]; omega

end Format

/-! ### Putting a word together again -/

theorem formatA_fields (w : Word) : (primary w ++ immNNN w : Word) = w := by
  apply BitVec.eq_of_toNat_eq; have := w.isLt; simp only [primary, immNNN, toNat_field, toNat_concat]; omega

theorem formatXNN_fields (w : Word) : (primary w ++ Reg.nibble (regX w) ++ immNN w : Word) = w := by
  apply BitVec.eq_of_toNat_eq; have := w.isLt
  simp only [primary, regX, immNN, Reg.nibble_toFin, toNat_field, toNat_concat]; omega

theorem formatXYN_fields (w : Word) :
    (primary w ++ Reg.nibble (regX w) ++ Reg.nibble (regY w) ++ immN w : Word) = w := by
  apply BitVec.eq_of_toNat_eq; have := w.isLt
  simp only [primary, regX, regY, immN, Reg.nibble_toFin, toNat_field, toNat_concat]; omega

theorem formatXE_fields (w : Word) : (primary w ++ Reg.nibble (regX w) ++ ignoredXE w ++ immN w : Word) = w := by
  apply BitVec.eq_of_toNat_eq; have := w.isLt
  simp only [primary, regX, ignoredXE, immN, Reg.nibble_toFin, toNat_field, toNat_concat]; omega

theorem formatS0_fields (w : Word) : (primary w ++ ignoredS0 w ++ immN w : Word) = w := by
  apply BitVec.eq_of_toNat_eq; have := w.isLt
  simp only [primary, ignoredS0, immN, toNat_field, toNat_concat]; omega

end Sys2Proof
end

