-- ==== Sys2Proof/Laws/Memory.lean ====
section
/-! SUPPORT. What reading, writing and the canonical form of memory satisfy (20_memory.md R50, R56). -/

namespace Sys2Proof.Machine

variable {font : Font}

/-- A cell of a canonical memory starting at `lo` is not below `lo`. -/
theorem Memory.wfFrom_read_below {m : Memory} : ∀ {lo a : Nat}, Memory.wfFrom font lo m = true → a < lo →
    Memory.read font m a = Memory.unlisted font a := by
  induction m with
  | nil => intros; rfl
  | cons c m ih =>
    obtain ⟨k, x⟩ := c
    intro lo a h ha
    simp only [Memory.wfFrom, Bool.and_eq_true, decide_eq_true_eq] at h
    rw [Memory.read, if_neg (by omega), ih h.2 (by omega)]

/-- Relaxing the lower bound keeps the form. -/
theorem Memory.wfFrom_mono {m : Memory} {lo lo' : Nat} (hle : lo' ≤ lo) (h : Memory.wfFrom font lo m = true) :
    Memory.wfFrom font lo' m = true := by
  cases m with
  | nil => rfl
  | cons c m =>
    simp only [Memory.wfFrom, Bool.and_eq_true, decide_eq_true_eq] at h ⊢
    exact ⟨⟨⟨by omega, h.1.1.2⟩, h.1.2⟩, h.2⟩

/-- A write inside memory keeps the canonical form, from any lower bound not above the address. -/
theorem Memory.wfFrom_write {m : Memory} : ∀ {lo a : Nat} (b : Byte), lo ≤ a → a ≤ 0xFFF →
    Memory.wfFrom font lo m = true → Memory.wfFrom font lo (Memory.write font m a b) = true := by
  induction m with
  | nil =>
    intro lo a b hlo ha _
    unfold Memory.write
    split <;> simp_all [Memory.wfFrom]
  | cons c m ih =>
    obtain ⟨k, x⟩ := c
    intro lo a b hlo ha h
    have h' := h
    simp only [Memory.wfFrom, Bool.and_eq_true, decide_eq_true_eq] at h'
    obtain ⟨⟨⟨hk, hk'⟩, hx⟩, hm⟩ := h'
    unfold Memory.write
    split
    · split
      · exact h
      · simp only [Memory.wfFrom, Bool.and_eq_true, decide_eq_true_eq]
        exact ⟨⟨⟨hlo, ha⟩, ‹_›⟩, ⟨⟨by omega, hk'⟩, hx⟩, hm⟩
    · split
      · subst_vars
        split
        · exact Memory.wfFrom_mono (by omega) hm
        · simp only [Memory.wfFrom, Bool.and_eq_true, decide_eq_true_eq]
          exact ⟨⟨⟨hlo, ha⟩, ‹_›⟩, hm⟩
      · simp only [Memory.wfFrom, Bool.and_eq_true, decide_eq_true_eq]
        exact ⟨⟨⟨hk, hk'⟩, hx⟩, ih b (by omega) ha hm⟩

/-- What a cell reads as after a write to a canonical memory: the byte written at its address, and everywhere else what
it read as before. -/
theorem Memory.read_write {m : Memory} : ∀ {lo : Nat} (a a' : Nat) (b : Byte), Memory.wfFrom font lo m = true →
    Memory.read font (Memory.write font m a b) a' = if a' = a then b else Memory.read font m a' := by
  induction m with
  | nil =>
    intro lo a a' b _
    unfold Memory.write
    split <;> simp only [Memory.read]
    · split <;> simp_all
    · simp only [eq_comm (a := a') (b := a)]
  | cons c m ih =>
    obtain ⟨k, x⟩ := c
    intro lo a a' b h
    simp only [Memory.wfFrom, Bool.and_eq_true, decide_eq_true_eq] at h
    obtain ⟨⟨⟨hk, hk'⟩, hx⟩, hm⟩ := h
    unfold Memory.write
    split
    · rename_i hak
      split
      · rename_i hb
        by_cases h' : a' = a
        · subst h'
          rw [if_pos rfl, hb, Memory.read, if_neg (by omega), Memory.wfFrom_read_below hm (by omega)]
        · rw [if_neg h']
      · rw [Memory.read]
        simp only [eq_comm (a := a') (b := a)]
    · split
      · subst_vars
        split
        · rename_i hb
          by_cases h' : a' = a
          · subst h'
            rw [if_pos rfl, hb, Memory.wfFrom_read_below hm (by omega)]
          · rw [if_neg h', Memory.read, if_neg (by omega)]
        · simp only [Memory.read]
          by_cases h' : a' = a
          · simp [h']
          · rw [if_neg (by omega), if_neg h', if_neg (by omega)]
      · simp only [Memory.read]
        rw [ih a a' b hm]
        by_cases h' : k = a'
        · rw [if_pos h', if_neg (by omega), if_pos h']
        · rw [if_neg h', if_neg h']

/-- `Memory.write` keeps the canonical form. -/
theorem Memory.wf_write {m : Memory} {a : Nat} (b : Byte) (ha : a ≤ 0xFFF) (h : Memory.wf font m = true) :
    Memory.wf font (Memory.write font m a b) = true :=
  Memory.wfFrom_write b (Nat.zero_le a) ha h

/-- `Memory.writeMany` keeps the canonical form. -/
theorem Memory.wf_writeMany {as : List Nat} : ∀ {m : Memory} {bs : List Byte}, (∀ a ∈ as, a ≤ 0xFFF) →
    Memory.wf font m = true → Memory.wf font (Memory.writeMany font m as bs) = true := by
  induction as with
  | nil => intro m bs _ h; cases bs <;> exact h
  | cons a as ih =>
    intro m bs ha h
    cases bs with
    | nil => exact h
    | cons b bs =>
      exact ih (fun a' h' => ha a' (List.mem_cons_of_mem _ h')) (Memory.wf_write b (ha a List.mem_cons_self) h)

/-- A cell none of the written addresses names reads as before. -/
theorem Memory.read_writeMany_other {as : List Nat} : ∀ {m : Memory} {bs : List Byte} {a' : Nat}, (∀ a ∈ as, a ≤ 0xFFF) →
    Memory.wf font m = true → a' ∉ as → Memory.read font (Memory.writeMany font m as bs) a' = Memory.read font m a' := by
  induction as with
  | nil => intro m bs a' _ _ _; cases bs <;> rfl
  | cons a as ih =>
    intro m bs a' ha h h'
    cases bs with
    | nil => rfl
    | cons b bs =>
      simp only [List.mem_cons, not_or] at h'
      rw [Memory.writeMany, ih (fun a' h' => ha a' (List.mem_cons_of_mem _ h')) (Memory.wf_write b (ha a List.mem_cons_self) h)
        h'.2, Memory.read_write a a' b h, if_neg h'.1]

/-- Bytes written at distinct addresses are read back from them. -/
theorem Memory.read_writeMany_at {as : List Nat} : ∀ {m : Memory} {bs : List Byte} {j : Nat}, (∀ a ∈ as, a ≤ 0xFFF) →
    as.Nodup → Memory.wf font m = true → (hj : j < as.length) → (hj' : j < bs.length) →
    Memory.read font (Memory.writeMany font m as bs) as[j] = bs[j] := by
  induction as with
  | nil => intro m bs j _ _ _ hj _; simp at hj
  | cons a as ih =>
    intro m bs j ha hnd h hj hj'
    cases bs with
    | nil => simp at hj'
    | cons b bs =>
      have ha' : ∀ a' ∈ as, a' ≤ 0xFFF := fun a' h' => ha a' (List.mem_cons_of_mem _ h')
      have hw := Memory.wf_write b (ha a List.mem_cons_self) h
      rw [List.nodup_cons] at hnd
      cases j with
      | zero => rw [Memory.writeMany, List.getElem_cons_zero, Memory.read_writeMany_other ha' hw hnd.1,
          Memory.read_write a a b h, if_pos rfl, List.getElem_cons_zero]
      | succ j => exact ih ha' hnd.2 hw (by simpa using hj) (by simpa using hj')

end Sys2Proof.Machine
end

