-- ==== Sys2Proof/Laws/State.lean ====
section
/-! SUPPORT. One lemma per field per named update of State, so that no later proof unfolds an update. -/

namespace Sys2Proof.Machine

variable (s : State)

/-! ### setV -/

@[simp] theorem State.setV_mem (r : Reg) (b : Byte) : (s.setV r b).mem = s.mem := rfl
@[simp] theorem State.setV_v (r : Reg) (b : Byte) : (s.setV r b).v = s.v.set r b := rfl
@[simp] theorem State.setV_i (r : Reg) (b : Byte) : (s.setV r b).i = s.i := rfl
@[simp] theorem State.setV_pc (r : Reg) (b : Byte) : (s.setV r b).pc = s.pc := rfl
@[simp] theorem State.setV_stack (r : Reg) (b : Byte) : (s.setV r b).stack = s.stack := rfl
@[simp] theorem State.setV_sp (r : Reg) (b : Byte) : (s.setV r b).sp = s.sp := rfl
@[simp] theorem State.setV_dt (r : Reg) (b : Byte) : (s.setV r b).dt = s.dt := rfl
@[simp] theorem State.setV_st (r : Reg) (b : Byte) : (s.setV r b).st = s.st := rfl
@[simp] theorem State.setV_fb (r : Reg) (b : Byte) : (s.setV r b).fb = s.fb := rfl
@[simp] theorem State.setV_key (r : Reg) (b : Byte) : (s.setV r b).key = s.key := rfl
@[simp] theorem State.setV_status (r : Reg) (b : Byte) : (s.setV r b).status = s.status := rfl
@[simp] theorem State.setV_params (r : Reg) (b : Byte) : (s.setV r b).params = s.params := rfl
@[simp] theorem State.setV_reportOut (r : Reg) (b : Byte) : (s.setV r b).reportOut = s.reportOut := rfl
@[simp] theorem State.setV_draws (r : Reg) (b : Byte) : (s.setV r b).draws = s.draws := rfl

/-! ### setI -/

@[simp] theorem State.setI_mem (a : Word) : (s.setI a).mem = s.mem := rfl
@[simp] theorem State.setI_v (a : Word) : (s.setI a).v = s.v := rfl
@[simp] theorem State.setI_i (a : Word) : (s.setI a).i = a := rfl
@[simp] theorem State.setI_pc (a : Word) : (s.setI a).pc = s.pc := rfl
@[simp] theorem State.setI_stack (a : Word) : (s.setI a).stack = s.stack := rfl
@[simp] theorem State.setI_sp (a : Word) : (s.setI a).sp = s.sp := rfl
@[simp] theorem State.setI_dt (a : Word) : (s.setI a).dt = s.dt := rfl
@[simp] theorem State.setI_st (a : Word) : (s.setI a).st = s.st := rfl
@[simp] theorem State.setI_fb (a : Word) : (s.setI a).fb = s.fb := rfl
@[simp] theorem State.setI_key (a : Word) : (s.setI a).key = s.key := rfl
@[simp] theorem State.setI_status (a : Word) : (s.setI a).status = s.status := rfl
@[simp] theorem State.setI_params (a : Word) : (s.setI a).params = s.params := rfl
@[simp] theorem State.setI_reportOut (a : Word) : (s.setI a).reportOut = s.reportOut := rfl
@[simp] theorem State.setI_draws (a : Word) : (s.setI a).draws = s.draws := rfl

/-! ### setPC -/

@[simp] theorem State.setPC_mem (a : Word) : (s.setPC a).mem = s.mem := rfl
@[simp] theorem State.setPC_v (a : Word) : (s.setPC a).v = s.v := rfl
@[simp] theorem State.setPC_i (a : Word) : (s.setPC a).i = s.i := rfl
@[simp] theorem State.setPC_pc (a : Word) : (s.setPC a).pc = a := rfl
@[simp] theorem State.setPC_stack (a : Word) : (s.setPC a).stack = s.stack := rfl
@[simp] theorem State.setPC_sp (a : Word) : (s.setPC a).sp = s.sp := rfl
@[simp] theorem State.setPC_dt (a : Word) : (s.setPC a).dt = s.dt := rfl
@[simp] theorem State.setPC_st (a : Word) : (s.setPC a).st = s.st := rfl
@[simp] theorem State.setPC_fb (a : Word) : (s.setPC a).fb = s.fb := rfl
@[simp] theorem State.setPC_key (a : Word) : (s.setPC a).key = s.key := rfl
@[simp] theorem State.setPC_status (a : Word) : (s.setPC a).status = s.status := rfl
@[simp] theorem State.setPC_params (a : Word) : (s.setPC a).params = s.params := rfl
@[simp] theorem State.setPC_reportOut (a : Word) : (s.setPC a).reportOut = s.reportOut := rfl
@[simp] theorem State.setPC_draws (a : Word) : (s.setPC a).draws = s.draws := rfl

/-! ### advance -/

@[simp] theorem State.advance_mem : (s.advance).mem = s.mem := rfl
@[simp] theorem State.advance_v : (s.advance).v = s.v := rfl
@[simp] theorem State.advance_i : (s.advance).i = s.i := rfl
@[simp] theorem State.advance_pc : (s.advance).pc = s.pc + 2 := rfl
@[simp] theorem State.advance_stack : (s.advance).stack = s.stack := rfl
@[simp] theorem State.advance_sp : (s.advance).sp = s.sp := rfl
@[simp] theorem State.advance_dt : (s.advance).dt = s.dt := rfl
@[simp] theorem State.advance_st : (s.advance).st = s.st := rfl
@[simp] theorem State.advance_fb : (s.advance).fb = s.fb := rfl
@[simp] theorem State.advance_key : (s.advance).key = s.key := rfl
@[simp] theorem State.advance_status : (s.advance).status = s.status := rfl
@[simp] theorem State.advance_params : (s.advance).params = s.params := rfl
@[simp] theorem State.advance_reportOut : (s.advance).reportOut = s.reportOut := rfl
@[simp] theorem State.advance_draws : (s.advance).draws = s.draws := rfl

/-! ### rewind -/

@[simp] theorem State.rewind_mem : (s.rewind).mem = s.mem := rfl
@[simp] theorem State.rewind_v : (s.rewind).v = s.v := rfl
@[simp] theorem State.rewind_i : (s.rewind).i = s.i := rfl
@[simp] theorem State.rewind_pc : (s.rewind).pc = s.pc - 2 := rfl
@[simp] theorem State.rewind_stack : (s.rewind).stack = s.stack := rfl
@[simp] theorem State.rewind_sp : (s.rewind).sp = s.sp := rfl
@[simp] theorem State.rewind_dt : (s.rewind).dt = s.dt := rfl
@[simp] theorem State.rewind_st : (s.rewind).st = s.st := rfl
@[simp] theorem State.rewind_fb : (s.rewind).fb = s.fb := rfl
@[simp] theorem State.rewind_key : (s.rewind).key = s.key := rfl
@[simp] theorem State.rewind_status : (s.rewind).status = s.status := rfl
@[simp] theorem State.rewind_params : (s.rewind).params = s.params := rfl
@[simp] theorem State.rewind_reportOut : (s.rewind).reportOut = s.reportOut := rfl
@[simp] theorem State.rewind_draws : (s.rewind).draws = s.draws := rfl

/-! ### writeMem -/

@[simp] theorem State.writeMem_mem (as : List Nat) (bs : List Byte) : (s.writeMem as bs).mem = Memory.writeMany s.params.font s.mem as bs := rfl
@[simp] theorem State.writeMem_v (as : List Nat) (bs : List Byte) : (s.writeMem as bs).v = s.v := rfl
@[simp] theorem State.writeMem_i (as : List Nat) (bs : List Byte) : (s.writeMem as bs).i = s.i := rfl
@[simp] theorem State.writeMem_pc (as : List Nat) (bs : List Byte) : (s.writeMem as bs).pc = s.pc := rfl
@[simp] theorem State.writeMem_stack (as : List Nat) (bs : List Byte) : (s.writeMem as bs).stack = s.stack := rfl
@[simp] theorem State.writeMem_sp (as : List Nat) (bs : List Byte) : (s.writeMem as bs).sp = s.sp := rfl
@[simp] theorem State.writeMem_dt (as : List Nat) (bs : List Byte) : (s.writeMem as bs).dt = s.dt := rfl
@[simp] theorem State.writeMem_st (as : List Nat) (bs : List Byte) : (s.writeMem as bs).st = s.st := rfl
@[simp] theorem State.writeMem_fb (as : List Nat) (bs : List Byte) : (s.writeMem as bs).fb = s.fb := rfl
@[simp] theorem State.writeMem_key (as : List Nat) (bs : List Byte) : (s.writeMem as bs).key = s.key := rfl
@[simp] theorem State.writeMem_status (as : List Nat) (bs : List Byte) : (s.writeMem as bs).status = s.status := rfl
@[simp] theorem State.writeMem_params (as : List Nat) (bs : List Byte) : (s.writeMem as bs).params = s.params := rfl
@[simp] theorem State.writeMem_reportOut (as : List Nat) (bs : List Byte) : (s.writeMem as bs).reportOut = s.reportOut := rfl
@[simp] theorem State.writeMem_draws (as : List Nat) (bs : List Byte) : (s.writeMem as bs).draws = s.draws := rfl

/-! ### report -/

@[simp] theorem State.report_mem (r : Report) : (s.report r).mem = s.mem := rfl
@[simp] theorem State.report_v (r : Report) : (s.report r).v = s.v := rfl
@[simp] theorem State.report_i (r : Report) : (s.report r).i = s.i := rfl
@[simp] theorem State.report_pc (r : Report) : (s.report r).pc = s.pc := rfl
@[simp] theorem State.report_stack (r : Report) : (s.report r).stack = s.stack := rfl
@[simp] theorem State.report_sp (r : Report) : (s.report r).sp = s.sp := rfl
@[simp] theorem State.report_dt (r : Report) : (s.report r).dt = s.dt := rfl
@[simp] theorem State.report_st (r : Report) : (s.report r).st = s.st := rfl
@[simp] theorem State.report_fb (r : Report) : (s.report r).fb = s.fb := rfl
@[simp] theorem State.report_key (r : Report) : (s.report r).key = s.key := rfl
@[simp] theorem State.report_status (r : Report) : (s.report r).status = s.status := rfl
@[simp] theorem State.report_params (r : Report) : (s.report r).params = s.params := rfl
@[simp] theorem State.report_reportOut (r : Report) : (s.report r).reportOut = s.reportOut ++ [r] := rfl
@[simp] theorem State.report_draws (r : Report) : (s.report r).draws = s.draws := rfl

/-! ### tick -/

@[simp] theorem State.tick_mem : (s.tick).mem = s.mem := rfl
@[simp] theorem State.tick_v : (s.tick).v = s.v := rfl
@[simp] theorem State.tick_i : (s.tick).i = s.i := rfl
@[simp] theorem State.tick_pc : (s.tick).pc = s.pc := rfl
@[simp] theorem State.tick_stack : (s.tick).stack = s.stack := rfl
@[simp] theorem State.tick_sp : (s.tick).sp = s.sp := rfl
@[simp] theorem State.tick_dt : (s.tick).dt = decTimer s.dt := rfl
@[simp] theorem State.tick_st : (s.tick).st = decTimer s.st := rfl
@[simp] theorem State.tick_fb : (s.tick).fb = s.fb := rfl
@[simp] theorem State.tick_key : (s.tick).key = s.key := rfl
@[simp] theorem State.tick_status : (s.tick).status = s.status := rfl
@[simp] theorem State.tick_params : (s.tick).params = s.params := rfl
@[simp] theorem State.tick_reportOut : (s.tick).reportOut = s.reportOut := rfl
@[simp] theorem State.tick_draws : (s.tick).draws = s.draws := rfl

/-! ### keySet -/

@[simp] theorem State.keySet_mem (k : Fin 16) (b : Bool) : (s.keySet k b).mem = s.mem := rfl
@[simp] theorem State.keySet_v (k : Fin 16) (b : Bool) : (s.keySet k b).v = s.v := rfl
@[simp] theorem State.keySet_i (k : Fin 16) (b : Bool) : (s.keySet k b).i = s.i := rfl
@[simp] theorem State.keySet_pc (k : Fin 16) (b : Bool) : (s.keySet k b).pc = s.pc := rfl
@[simp] theorem State.keySet_stack (k : Fin 16) (b : Bool) : (s.keySet k b).stack = s.stack := rfl
@[simp] theorem State.keySet_sp (k : Fin 16) (b : Bool) : (s.keySet k b).sp = s.sp := rfl
@[simp] theorem State.keySet_dt (k : Fin 16) (b : Bool) : (s.keySet k b).dt = s.dt := rfl
@[simp] theorem State.keySet_st (k : Fin 16) (b : Bool) : (s.keySet k b).st = s.st := rfl
@[simp] theorem State.keySet_fb (k : Fin 16) (b : Bool) : (s.keySet k b).fb = s.fb := rfl
@[simp] theorem State.keySet_key (k : Fin 16) (b : Bool) : (s.keySet k b).key = s.key.set k b := rfl
@[simp] theorem State.keySet_status (k : Fin 16) (b : Bool) : (s.keySet k b).status = s.status := rfl
@[simp] theorem State.keySet_params (k : Fin 16) (b : Bool) : (s.keySet k b).params = s.params := rfl
@[simp] theorem State.keySet_reportOut (k : Fin 16) (b : Bool) : (s.keySet k b).reportOut = s.reportOut := rfl
@[simp] theorem State.keySet_draws (k : Fin 16) (b : Bool) : (s.keySet k b).draws = s.draws := rfl

/-! ### skipIf -/

@[simp] theorem State.skipIf_pc (c : Bool) : (s.skipIf c).pc = if c then s.pc + 2 else s.pc := by cases c <;> rfl
@[simp] theorem State.skipIf_mem (c : Bool) : (s.skipIf c).mem = s.mem := by cases c <;> rfl
@[simp] theorem State.skipIf_v (c : Bool) : (s.skipIf c).v = s.v := by cases c <;> rfl
@[simp] theorem State.skipIf_i (c : Bool) : (s.skipIf c).i = s.i := by cases c <;> rfl
@[simp] theorem State.skipIf_stack (c : Bool) : (s.skipIf c).stack = s.stack := by cases c <;> rfl
@[simp] theorem State.skipIf_sp (c : Bool) : (s.skipIf c).sp = s.sp := by cases c <;> rfl
@[simp] theorem State.skipIf_dt (c : Bool) : (s.skipIf c).dt = s.dt := by cases c <;> rfl
@[simp] theorem State.skipIf_st (c : Bool) : (s.skipIf c).st = s.st := by cases c <;> rfl
@[simp] theorem State.skipIf_fb (c : Bool) : (s.skipIf c).fb = s.fb := by cases c <;> rfl
@[simp] theorem State.skipIf_key (c : Bool) : (s.skipIf c).key = s.key := by cases c <;> rfl
@[simp] theorem State.skipIf_status (c : Bool) : (s.skipIf c).status = s.status := by cases c <;> rfl
@[simp] theorem State.skipIf_params (c : Bool) : (s.skipIf c).params = s.params := by cases c <;> rfl
@[simp] theorem State.skipIf_reportOut (c : Bool) : (s.skipIf c).reportOut = s.reportOut := by cases c <;> rfl
@[simp] theorem State.skipIf_draws (c : Bool) : (s.skipIf c).draws = s.draws := by cases c <;> rfl

/-- A conditional skip changes nothing but `PC`. -/
theorem State.skipIf_eq (c : Bool) : s.skipIf c = { s with pc := if c then s.pc + 2 else s.pc } := by cases c <;> rfl

end Sys2Proof.Machine
end

