-- ==== Sys2Proof/Laws/Ops.lean ====
section
/-! SUPPORT. For each shared operation, what it can do, so that later proofs cite it and never unfold it. -/

namespace Sys2Proof.Machine

/-! ### Addresses -/

theorem physAddr_le (base k : Nat) : physAddr base k ≤ 0xFFF := by unfold physAddr; omega

/-- The addresses of a block of at most 0x1000 bytes are distinct. -/
theorem physAddr_inj {base j k : Nat} (hj : j < 0x1000) (hk : k < 0x1000) (h : physAddr base j = physAddr base k) :
    j = k := by
  unfold physAddr at h; omega

/-- A block that passes the check is the list of its physical addresses. -/
theorem checkBlock_ok {p : MemAddrPolicy} : ∀ {n base : Nat}, (∀ k, k < n → p = .wrap12 ∨ base + k ≤ 0xFFF) →
    checkBlock p base n = .ok ((List.range' 0 n).map (physAddr base)) := by
  intro n
  induction n with
  | zero => intros; rfl
  | succ n ih =>
    intro base h
    have h0 := h 0 (by omega)
    have hhead : checkAddr p base = .ok (physAddr base 0) := by
      unfold checkAddr physAddr
      rcases h0 with rfl | h0
      · split
        · rw [Nat.mod_eq_of_lt (by omega)]; rfl
        · rfl
      · rw [if_pos (by simpa using h0), Nat.mod_eq_of_lt (by omega)]; rfl
    have htail := ih (base := base + 1) (fun k hk => by
      have := h (k + 1) (by omega)
      rcases this with h' | h'
      · exact .inl h'
      · exact .inr (by omega))
    rw [checkBlock, hhead]
    dsimp only
    rw [htail, List.range'_succ, List.map_cons, List.range'_eq_map_range, List.range'_eq_map_range]
    simp only [List.map_map]
    refine congrArg (fun l => Except.ok (physAddr base 0 :: l)) (List.map_congr_left fun k _ => ?_)
    simp only [Function.comp, physAddr]
    congr 1
    omega

/-- A block that runs past 0xFFF under `MEM_ADDR_POLICY = fault` fails at its first address above 0xFFF. -/
theorem checkBlock_error : ∀ {n base : Nat}, 1 ≤ n → base + n - 1 > 0xFFF →
    checkBlock .fault base n = .error (max base 0x1000) := by
  intro n
  induction n with
  | zero => intro base h; omega
  | succ n ih =>
    intro base _ h
    rw [checkBlock]
    by_cases hb : base ≤ 0xFFF
    · have hn : 1 ≤ n := by omega
      rw [checkAddr, if_pos hb]
      dsimp only
      rw [ih hn (by omega)]
      dsimp only
      rw [Nat.max_eq_right (by omega), Nat.max_eq_right (by omega)]
    · rw [checkAddr, if_neg hb]
      dsimp only
      rw [Nat.max_eq_left (by omega)]

/-- A block passes the check, or it runs past 0xFFF under `MEM_ADDR_POLICY = fault`. -/
theorem blockPasses_or (p : Params) (base n : Nat) :
    BlockPasses p base n ∨ (p.memAddr = .fault ∧ 1 ≤ n ∧ base + n - 1 > 0xFFF) := by
  cases h : p.memAddr with
  | wrap12 => exact .inl fun _ _ => .inl h
  | fault =>
    by_cases hn : 1 ≤ n ∧ base + n - 1 > 0xFFF
    · exact .inr ⟨rfl, hn⟩
    · exact .inl fun k hk => .inr (by omega)

/-- `withBlock` runs its continuation on the physical addresses, or faults with the first failing one. -/
theorem withBlock_cases (instr : Instr) (s : State) (n : Nat) (k : List Nat → State) :
    (BlockPasses s.params s.i.toNat n ∧
      withBlock instr s n k = .next (k ((List.range' 0 n).map (physAddr s.i.toNat)))) ∨
    (s.params.memAddr = .fault ∧ 1 ≤ n ∧ s.i.toNat + n - 1 > 0xFFF ∧
      withBlock instr s n k = .fault (.memRange (encode instr) s.fetchAddr (max s.i.toNat 0x1000))) := by
  rcases blockPasses_or s.params s.i.toNat n with h | ⟨hp, hn, h⟩
  · exact .inl ⟨h, by rw [withBlock, checkBlock_ok h]⟩
  · exact .inr ⟨hp, hn, h, by rw [withBlock, hp, checkBlock_error hn h]; rfl⟩

theorem withBlock_ok {instr : Instr} {s : State} {n : Nat} {k : List Nat → State} (h : BlockPasses s.params s.i.toNat n) :
    withBlock instr s n k = .next (k ((List.range' 0 n).map (physAddr s.i.toNat))) := by
  rw [withBlock, checkBlock_ok h]

theorem withBlock_error {instr : Instr} {s : State} {n : Nat} {k : List Nat → State} (hp : s.params.memAddr = .fault)
    (hn : 1 ≤ n) (h : s.i.toNat + n - 1 > 0xFFF) :
    withBlock instr s n k = .fault (.memRange (encode instr) s.fetchAddr (max s.i.toNat 0x1000)) := by
  rw [withBlock, hp, checkBlock_error hn h]; rfl

/-- The addresses of a passing block are in memory. -/
theorem physAddrs_le (base n : Nat) : ∀ a ∈ (List.range' 0 n).map (physAddr base), a ≤ 0xFFF := by
  intro a ha
  obtain ⟨k, -, rfl⟩ := List.mem_map.1 ha
  exact physAddr_le base k

theorem mem_physAddrs {base n a : Nat} : a ∈ (List.range' 0 n).map (physAddr base) ↔ ∃ k, k < n ∧ physAddr base k = a := by
  simp [List.mem_map, List.mem_range'_1]

theorem physAddrs_nodup {base n : Nat} (hn : n ≤ 0x1000) : ((List.range' 0 n).map (physAddr base)).Nodup := by
  refine List.Nodup.map_on (fun j hj k hk h => ?_) (List.nodup_range' (step := 1))
  simp only [List.mem_range'_1] at hj hk
  exact physAddr_inj (by omega) (by omega) h

/-! ### Memory -/

/-- Storing keeps the invariant. -/
theorem writeMem_inv {s : State} {as : List Nat} {bs : List Byte} (ha : ∀ a ∈ as, a ≤ 0xFFF) (h : MemoryCanonical s) :
    MemoryCanonical (s.writeMem as bs) :=
  Memory.wf_writeMany ha h

theorem readMem_writeMem_other {s : State} {as : List Nat} {bs : List Byte} {a' : Nat} (ha : ∀ a ∈ as, a ≤ 0xFFF)
    (h : MemoryCanonical s) (h' : a' ∉ as) : (s.writeMem as bs).readMem a' = s.readMem a' :=
  Memory.read_writeMany_other ha h h'

/-- The `k`-th byte stored over a block is read back from its `k`-th address. -/
theorem readMem_writeMem_block {s : State} {base n k : Nat} {bs : List Byte} (h : MemoryCanonical s) (hn : n ≤ 0x1000) (hk : k < n)
    (hb : k < bs.length) :
    (s.writeMem ((List.range' 0 n).map (physAddr base)) bs).readMem (physAddr base k) = bs[k] := by
  have hl : k < ((List.range' 0 n).map (physAddr base)).length := by simpa using hk
  have := Memory.read_writeMany_at (font := s.params.font) (m := s.mem) (bs := bs) (physAddrs_le base n)
    (physAddrs_nodup hn) h hl hb
  simpa [State.readMem, State.writeMem] using this

/-! ### Registers -/

theorem setV_get (s : State) (x r : Reg) (b : Byte) : (s.setV x b).v[r] = if r = x then b else s.v[r] := by
  simp only [State.setV_v, Fin.getElem_fin, Vector.getElem_set]
  by_cases h : r = x
  · simp [h]
  · rw [if_neg (fun h' => h (Fin.ext h'.symm)), if_neg h]

/-- Writing one register is `OnlyRegWritten`. -/
theorem setV_onlyRegWritten (s : State) (x : Reg) (b : Byte) : OnlyRegWritten s (s.setV x b) x b :=
  ⟨rfl, by rw [setV_get, if_pos rfl], fun r hr => by rw [setV_get, if_neg hr]⟩

/-- A run of bytes written from register `k` on. -/
theorem setRegsFrom_get {bs : List Byte} : ∀ {v : Vector Byte 16} {k j : Nat} (hj : j < 16),
    (setRegsFrom v k bs)[j] = if h : k ≤ j ∧ j < k + bs.length then bs[j - k] else v[j] := by
  induction bs with
  | nil =>
    intro v k j hj
    rw [setRegsFrom, dif_neg (by simp)]
  | cons b bs ih =>
    intro v k j hj
    rw [setRegsFrom, ih hj]
    by_cases h1 : k + 1 ≤ j ∧ j < k + 1 + bs.length
    · rw [dif_pos h1, dif_pos (by simp; omega)]
      have : j - k = (j - (k + 1)) + 1 := by omega
      simp [this]
    · rw [dif_neg h1]
      by_cases h2 : k = j
      · subst h2; simp
      · rw [dif_neg (by simp; omega), Vector.getElem_setIfInBounds_ne hj (by omega)]

theorem regsUpTo_length (v : Vector Byte 16) (x : Reg) : (regsUpTo v x).length = x.val + 1 := by
  simp [regsUpTo]

theorem regsUpTo_get (v : Vector Byte 16) (x : Reg) {k : Nat} (h : k < (regsUpTo v x).length) (hk : k < 16) :
    (regsUpTo v x)[k] = v[k] := by
  simp [regsUpTo]

/-! ### The return stack -/

/-- `push` fails exactly at 16 live entries, and else stores the program counter at the old depth. -/
theorem push_eq_none {s : State} : s.push = none ↔ s.sp.val = 16 := by
  unfold State.push
  split <;> simp <;> omega

theorem push_eq_some {s : State} (h : s.sp.val < 16) :
    s.push = some { s with stack := s.stack.set s.sp.val s.pc, sp := ⟨s.sp.val + 1, by omega⟩ } := by
  rw [State.push, dif_pos h]

/-- `pop` fails exactly at depth 0. -/
theorem pop_eq_none {s : State} : s.pop = none ↔ s.sp.val = 0 := by
  obtain ⟨mem, v, i, pc, stack, ⟨_ | k, hk⟩, dt, st, fb, key, status, params, ro, dr⟩ := s <;> simp [State.pop]

theorem pop_eq_some {s : State} {k : Nat} (hk : k < 16) (h : s.sp.val = k + 1) :
    s.pop = some { s with sp := ⟨k, Nat.lt_succ_of_lt hk⟩, pc := s.stack[k] } := by
  obtain ⟨mem, v, i, pc, stack, sp, dt, st, fb, key, status, params, ro, dr⟩ := s
  obtain rfl : sp = ⟨k + 1, Nat.succ_lt_succ hk⟩ := Fin.ext h
  rfl

/-! ### The framebuffer -/

/-- Flipping one pixel. -/
theorem get_flip (fb : Framebuffer) (p q : Pixel) : (fb.flip p).get q = Bool.xor (fb.get q) (decide (q = p)) := by
  obtain ⟨px, py⟩ := p
  obtain ⟨qx, qy⟩ := q
  simp only [Framebuffer.get, Framebuffer.flip, Fin.getElem_fin, Vector.getElem_set, Prod.mk.injEq]
  by_cases hy : qy = py
  · subst hy
    by_cases hx : qx = px
    · subst hx; simp
    · have : px.val ≠ qx.val := fun h => hx (Fin.ext h.symm)
      simp [hx, this]
  · have : py.val ≠ qy.val := fun h => hy (Fin.ext h.symm)
    simp [hy, this]

theorem foldl_plot {ps : List Pixel} : ∀ (fb : Framebuffer) (hit : Bool), ps.Nodup →
    (∀ q, (ps.foldl plot (fb, hit)).1.get q = Bool.xor (fb.get q) (decide (q ∈ ps))) ∧
    ((ps.foldl plot (fb, hit)).2 = true ↔ hit = true ∨ ∃ q ∈ ps, fb.get q = true) := by
  induction ps with
  | nil => intro fb hit _; simp
  | cons p ps ih =>
    intro fb hit h
    rw [List.nodup_cons] at h
    obtain ⟨h1, h2⟩ := ih (fb.flip p) (hit || fb.get p) h.2
    refine ⟨fun q => ?_, ?_⟩
    · rw [List.foldl_cons, plot, h1 q, get_flip]
      by_cases hq : q = p
      · subst hq; simp [h.1]
      · simp [hq]
    · rw [List.foldl_cons, plot, h2]
      constructor
      · rintro (hh | ⟨q, hq, hg⟩)
        · rw [Bool.or_eq_true] at hh
          rcases hh with hh | hh
          · exact .inl hh
          · exact .inr ⟨p, List.mem_cons_self, hh⟩
        · have hne : q ≠ p := fun e => h.1 (e ▸ hq)
          rw [get_flip] at hg
          exact .inr ⟨q, List.mem_cons_of_mem _ hq, by simpa [hne] using hg⟩
      · rintro (hh | ⟨q, hq, hg⟩)
        · exact .inl (by simp [hh])
        · rcases List.mem_cons.1 hq with rfl | hq
          · exact .inl (by simp [hg])
          · have hne : q ≠ p := fun e => h.1 (e ▸ hq)
            exact .inr ⟨q, hq, by rw [get_flip]; simpa [hne] using hg⟩

/-- The draw loop over distinct pixels: each is flipped, and the collision is that one of them was set. -/
theorem draw_get {ps : List Pixel} (fb : Framebuffer) (h : ps.Nodup) (q : Pixel) :
    (fb.draw ps).1.get q = Bool.xor (fb.get q) (decide (q ∈ ps)) :=
  (foldl_plot fb false h).1 q

theorem draw_hit {ps : List Pixel} (fb : Framebuffer) (h : ps.Nodup) :
    (fb.draw ps).2 = true ↔ ∃ q ∈ ps, fb.get q = true := by
  have := (foldl_plot fb false h).2
  simpa [Framebuffer.draw] using this

/-- The columns of a sprite byte. -/
theorem mem_spriteColumns {b : Byte} {c : Nat} : c ∈ spriteColumns b ↔ c < 8 ∧ b.getLsbD (7 - c) = true := by
  simp [spriteColumns]

/-- The pixels of a sprite: row `r`, column `c` of a set bit. -/
theorem mem_spritePixels {bs : List Byte} : ∀ {x0 y0 : Nat} {q : Pixel},
    q ∈ spritePixels x0 y0 bs ↔ ∃ r c, ∃ h : r < bs.length, c < 8 ∧ (bs[r]).getLsbD (7 - c) = true ∧
      q.1.val = (x0 + c) % 64 ∧ q.2.val = (y0 + r) % 32 := by
  induction bs with
  | nil => intro x0 y0 q; simp [spritePixels]
  | cons b bs ih =>
    intro x0 y0 q
    rw [spritePixels, List.mem_append, ih, List.mem_map]
    constructor
    · rintro (⟨c, hc, rfl⟩ | ⟨r, c, h, hc, hb, hx, hy⟩)
      · exact ⟨0, c, by simp, (mem_spriteColumns.1 hc).1, by simpa using (mem_spriteColumns.1 hc).2,
          by simp [Fin.ofNat], by simp [Fin.ofNat]⟩
      · exact ⟨r + 1, c, by simpa using h, hc, by simpa using hb, hx, by rw [hy]; congr 1; omega⟩
    · rintro ⟨r, c, h, hc, hb, hx, hy⟩
      cases r with
      | zero =>
        refine .inl ⟨c, mem_spriteColumns.2 ⟨hc, by simpa using hb⟩, ?_⟩
        ext <;> simp [Fin.ofNat, hx, hy]
      | succ r => exact .inr ⟨r, c, by simpa using h, hc, by simpa using hb, hx, by rw [hy]; congr 1; omega⟩

/-- The pixels of one draw are distinct: 8 columns fit in 64 and at most 32 rows in 32 (R172). -/
theorem spritePixels_nodup {bs : List Byte} : ∀ {x0 y0 : Nat}, bs.length ≤ 32 → (spritePixels x0 y0 bs).Nodup := by
  induction bs with
  | nil => intros; exact List.nodup_nil
  | cons b bs ih =>
    intro x0 y0 h
    simp only [List.length_cons] at h
    rw [spritePixels, List.nodup_append']
    refine ⟨?_, ih (by omega), ?_⟩
    · refine List.Nodup.map_on (fun c hc c' hc' he => ?_) (List.Nodup.filter _ List.nodup_range)
      have h1 := (mem_spriteColumns.1 hc).1
      have h2 := (mem_spriteColumns.1 hc').1
      have := congrArg (fun q : Pixel => q.1.val) he
      simp [Fin.ofNat] at this
      omega
    · intro q hq hq'
      obtain ⟨c, hc, rfl⟩ := List.mem_map.1 hq
      obtain ⟨r, c', hr, -, -, -, hy⟩ := mem_spritePixels.1 hq'
      simp [Fin.ofNat] at hy
      omega

/-! ### Keys and timers -/

/-- A timer's decrement saturates at 0. -/
theorem toNat_decTimer (t : Byte) : (decTimer t).toNat = t.toNat - 1 := by
  unfold decTimer
  split
  · simp_all
  · rename_i h
    have : t.toNat ≠ 0 := fun h' => h (BitVec.eq_of_toNat_eq h')
    have := t.isLt
    rw [BitVec.toNat_sub]
    simp
    omega

/-- The pressed key of lowest index. -/
theorem firstKey_eq_some {s : State} {k : Fin 16} (hk : s.key[k] = true) (h : ∀ j : Fin 16, j < k → s.key[j] = false) :
    s.firstKey = some k := by
  unfold State.firstKey
  rw [List.find?_eq_some_iff_append]
  refine ⟨by simpa using hk, (List.finRange 16).take k.val, (List.finRange 16).drop (k.val + 1), ?_, ?_⟩
  · have h1 : k.val < (List.finRange 16).length := by simp
    have := List.take_append_drop k.val (List.finRange 16)
    rw [List.drop_eq_getElem_cons h1] at this
    simpa using this.symm
  · intro j hj
    obtain ⟨i, hi, rfl⟩ := List.mem_iff_getElem.1 hj
    simp only [List.length_take, List.length_finRange] at hi
    have := h ⟨i, by omega⟩ (by rw [Fin.lt_def]; exact (lt_min_iff.1 hi).1)
    simpa [List.getElem_take] using this

theorem firstKey_eq_none {s : State} : s.firstKey = none ↔ ∀ k : Fin 16, s.key[k] = false := by
  simp [State.firstKey, List.find?_eq_none]

/-- The key a register value names: its low nibble, or nothing where the value is above 15 and the policy faults. -/
theorem keyIndex_ok {p : KeyIndexPolicy} {b : Byte} (h : p = .mask4 ∨ b.toNat ≤ 15) :
    keyIndex p b = some (Fin.ofNat 16 b.toNat) := by
  unfold keyIndex
  split
  · rename_i hb
    refine congrArg some (Fin.ext ?_)
    simp [Fin.ofNat, Nat.mod_eq_of_lt hb]
  · rcases h with rfl | h
    · rfl
    · omega

theorem keyIndex_none {p : KeyIndexPolicy} {b : Byte} : keyIndex p b = none ↔ p = .fault ∧ b.toNat > 15 := by
  unfold keyIndex
  split
  · simp; omega
  · cases p <;> simp; omega

/-! ### The flag-writing ALU operations -/

/-- `aluVF` writes the result and then the flag, or refuses a form that names VF. -/
theorem aluVF_ok {instr : Instr} {x y : Reg} {readsY : Bool} {op : AluOp} {s : State}
    (h : s.params.vfDest = .flagLast ∨ namesVF x y readsY = false) :
    aluVF instr x y readsY op s = .next ((s.setV x (op s.v[x] s.v[y]).1).setV Reg.vF (flagByte (op s.v[x] s.v[y]).2)) := by
  unfold aluVF
  rw [if_neg]
  rintro ⟨h1, h2⟩
  rcases h with h | h
  · rw [h1] at h; cases h
  · rw [h2] at h; cases h

theorem aluVF_refused {instr : Instr} {x y : Reg} {readsY : Bool} {op : AluOp} {s : State}
    (h : s.params.vfDest = .refuse) (h' : namesVF x y readsY = true) :
    aluVF instr x y readsY op s = .refused (.vfOperand (encode instr) s.fetchAddr) := by
  unfold aluVF
  rw [if_pos ⟨h, h'⟩]
  rfl

/-- The writes of `aluVF` as a frame: `V[x]` holds the result unless it is VF, VF the flag. -/
theorem resultAndFlagWritten {s : State} {x : Reg} {res : Byte} {n : Nat} {flag : Bool} {F : Prop} (hn : res.toNat = n)
    (hf : flag = true ↔ F) : ResultAndFlagWritten s ((s.setV x res).setV Reg.vF (flagByte flag)) x n F := by
  refine ⟨rfl, fun hx => ?_, fun h => ?_, fun h => ?_, fun r hr hr' => ?_⟩
  · rw [setV_get, if_neg hx, setV_get, if_pos rfl, hn]
  · rw [setV_get, if_pos rfl, hf.2 h]; rfl
  · rw [setV_get, if_pos rfl]
    cases flag
    · rfl
    · exact absurd (hf.1 rfl) h
  · rw [setV_get, if_neg hr', setV_get, if_neg hr]

end Sys2Proof.Machine
end

