-- ==== Sys2Proof/Laws/PerInstr.lean ====
section
/-! SUPPORT. Per constructor: an instruction's word lies in its own row of opcode_table.json (30_encoding.md R81). -/

namespace Sys2Proof.Laws.TableRow

/-- The word of `i` is in the row of `i`: the row's fixed bits hold the row's match. -/
def Statement (i : Instr) : Prop := encode i &&& i.row.mask = i.row.value

/-! ### The masks of the table, over a word in fields -/

theorem and_ones (p : Nibble) : p &&& 0xF#4 = p := by simpa using BitVec.and_allOnes (x := p)

theorem mask_formatA (p : Nibble) (nnn : Imm12) : (p ++ nnn : Word) &&& 0xF000#16 = p ++ 0#12 := by
  rw [show 0xF000#16 = (0xF#4 ++ 0#12 : Word) from rfl, BitVec.and_append, and_ones, BitVec.and_zero]

theorem mask_formatXNN (p x : Nibble) (nn : Byte) : (p ++ x ++ nn : Word) &&& 0xF000#16 = p ++ 0#4 ++ 0#8 := by
  rw [show 0xF000#16 = (0xF#4 ++ 0#4 ++ 0#8 : Word) from rfl, BitVec.and_append, BitVec.and_append, and_ones,
    BitVec.and_zero, BitVec.and_zero]

theorem mask_formatXF (p x : Nibble) (nn : Byte) : (p ++ x ++ nn : Word) &&& 0xF0FF#16 = p ++ 0#4 ++ nn := by
  rw [show 0xF0FF#16 = (0xF#4 ++ 0#4 ++ 0xFF#8 : Word) from rfl, BitVec.and_append, BitVec.and_append, and_ones,
    BitVec.and_zero, show nn &&& 0xFF#8 = nn by simpa using BitVec.and_allOnes (x := nn)]

theorem mask_formatXYN (p x y n : Nibble) : (p ++ x ++ y ++ n : Word) &&& 0xF000#16 = p ++ 0#4 ++ 0#4 ++ 0#4 := by
  rw [show 0xF000#16 = (0xF#4 ++ 0#4 ++ 0#4 ++ 0#4 : Word) from rfl, BitVec.and_append, BitVec.and_append,
    BitVec.and_append, and_ones, BitVec.and_zero, BitVec.and_zero, BitVec.and_zero]

theorem mask_formatXY (p x y n : Nibble) : (p ++ x ++ y ++ n : Word) &&& 0xF00F#16 = p ++ 0#4 ++ 0#4 ++ n := by
  rw [show 0xF00F#16 = (0xF#4 ++ 0#4 ++ 0#4 ++ 0xF#4 : Word) from rfl, BitVec.and_append, BitVec.and_append,
    BitVec.and_append, and_ones, and_ones, BitVec.and_zero, BitVec.and_zero]

theorem mask_formatS0 (p n : Nibble) (b : Byte) : (p ++ b ++ n : Word) &&& 0xF00F#16 = p ++ 0#8 ++ n := by
  rw [show 0xF00F#16 = (0xF#4 ++ 0#8 ++ 0xF#4 : Word) from rfl, BitVec.and_append, BitVec.and_append, and_ones, and_ones,
    BitVec.and_zero]

/-! ### The rows -/

theorem cls (ign : Byte) : Statement (.cls ign) := mask_formatS0 ..

theorem ret (ign : Byte) : Statement (.ret ign) := mask_formatS0 ..

theorem jp (nnn : Imm12) : Statement (.jp nnn) := mask_formatA ..

theorem call (nnn : Imm12) : Statement (.call nnn) := mask_formatA ..

theorem seImm (x : Reg) (nn : Byte) : Statement (.seImm x nn) := mask_formatXNN ..

theorem sneImm (x : Reg) (nn : Byte) : Statement (.sneImm x nn) := mask_formatXNN ..

theorem seReg (x y : Reg) (ign : Nibble) : Statement (.seReg x y ign) := mask_formatXYN ..

theorem ldImm (x : Reg) (nn : Byte) : Statement (.ldImm x nn) := mask_formatXNN ..

theorem addImm (x : Reg) (nn : Byte) : Statement (.addImm x nn) := mask_formatXNN ..

theorem ldReg (x y : Reg) : Statement (.ldReg x y) := mask_formatXY ..

theorem orReg (x y : Reg) : Statement (.orReg x y) := mask_formatXY ..

theorem andReg (x y : Reg) : Statement (.andReg x y) := mask_formatXY ..

theorem xorReg (x y : Reg) : Statement (.xorReg x y) := mask_formatXY ..

theorem addReg (x y : Reg) : Statement (.addReg x y) := mask_formatXY ..

theorem subReg (x y : Reg) : Statement (.subReg x y) := mask_formatXY ..

theorem shr (x y : Reg) : Statement (.shr x y) := mask_formatXY ..

theorem subnReg (x y : Reg) : Statement (.subnReg x y) := mask_formatXY ..

theorem shl (x y : Reg) : Statement (.shl x y) := mask_formatXY ..

theorem sneReg (x y : Reg) : Statement (.sneReg x y) := mask_formatXY ..

theorem ldI (nnn : Imm12) : Statement (.ldI nnn) := mask_formatA ..

theorem jpV0 (nnn : Imm12) : Statement (.jpV0 nnn) := mask_formatA ..

theorem rnd (x : Reg) (nn : Byte) : Statement (.rnd x nn) := mask_formatXNN ..

theorem drw (x y : Reg) (n : Nibble) : Statement (.drw x y n) := mask_formatXYN ..

theorem skp (x : Reg) (ign : Nibble) : Statement (.skp x ign) := mask_formatXY ..

theorem sknp (x : Reg) (ign : Nibble) : Statement (.sknp x ign) := mask_formatXY ..

theorem ldVxDT (x : Reg) : Statement (.ldVxDT x) := mask_formatXF ..

theorem ldVxK (x : Reg) : Statement (.ldVxK x) := mask_formatXF ..

theorem ldDTVx (x : Reg) : Statement (.ldDTVx x) := mask_formatXF ..

theorem ldSTVx (x : Reg) : Statement (.ldSTVx x) := mask_formatXF ..

theorem addIVx (x : Reg) : Statement (.addIVx x) := mask_formatXF ..

theorem ldFVx (x : Reg) : Statement (.ldFVx x) := mask_formatXF ..

theorem ldBVx (x : Reg) : Statement (.ldBVx x) := mask_formatXF ..

theorem ldMemVx (x : Reg) : Statement (.ldMemVx x) := mask_formatXF ..

theorem ldVxMem (x : Reg) : Statement (.ldVxMem x) := mask_formatXF ..

end Sys2Proof.Laws.TableRow
end

