-- ==== Sys2Proof/Laws/Step.lean ====
section
/-! SUPPORT. What the cycle driver does, said once: the fetch, the parts of a step, and what no meaning changes. -/

namespace Sys2Proof.Machine

/-! ### The fetch -/

/-- A fetch in range reads the two bytes at `PC` and `PC + 1`. -/
theorem fetch_ok {s : State} (h : BlockPasses s.params s.pc.toNat 2) :
    fetch s = .ok (wordOfBytes (s.readMem (physAddr s.pc.toNat 0)) (s.readMem (physAddr s.pc.toNat 1))) := by
  unfold fetch
  rw [checkBlock_ok h]
  rfl

/-- A fetch out of range faults with the fetch address. -/
theorem fetch_error {s : State} (hp : s.params.memAddr = .fault) (h : s.pc.toNat ≥ 0xFFF) :
    fetch s = .error (.fetchRange s.pc) := by
  unfold fetch
  rw [hp, checkBlock_error (by omega) (by omega)]

theorem fetch_cases (s : State) :
    (BlockPasses s.params s.pc.toNat 2 ∧
      fetch s = .ok (wordOfBytes (s.readMem (physAddr s.pc.toNat 0)) (s.readMem (physAddr s.pc.toNat 1)))) ∨
    (s.params.memAddr = .fault ∧ s.pc.toNat ≥ 0xFFF ∧ fetch s = .error (.fetchRange s.pc)) := by
  rcases blockPasses_or s.params s.pc.toNat 2 with h | ⟨hp, -, h⟩
  · exact .inl ⟨h, fetch_ok h⟩
  · exact .inr ⟨hp, by omega, fetch_error hp (by omega)⟩

/-- The fetch address a routine sees is the step's `PC`. -/
theorem fetchAddr_advance (s : State) : s.advance.fetchAddr = s.pc := by
  simp [State.fetchAddr]

/-! ### The parts of a step -/

theorem step_running {s : State} (h : s.status = .running) : step s = cycleDriver s := by
  unfold step
  rw [h]

theorem step_fetched {s : State} {w : Word} (h : s.status = .running) (hf : fetch s = .ok w) :
    step s = thenTick (dispatch w s.advance) := by
  rw [step_running h, cycleDriver, hf]

theorem step_decoded {s : State} {w : Word} {i : Instr} (h : s.status = .running) (hf : fetch s = .ok w)
    (hd : decodeWord w = .ok i) : step s = thenTick (exec i s.advance) := by
  rw [step_fetched h hf, dispatch, hd]

theorem step_unknown {s : State} {w : Word} {r : Reject} (h : s.status = .running) (hf : fetch s = .ok w)
    (hd : decodeWord w = .error r) : step s = .next (s.advance.report (.unknownOpcode w s.pc)).tick := by
  rw [step_fetched h hf, dispatch, hd, fetchAddr_advance]
  rfl

theorem thenTick_next {r : Result} {t : State} (h : thenTick r = .next t) : ∃ u, r = .next u ∧ t = u.tick := by
  cases r <;> simp_all [thenTick]

theorem thenTick_fault {r : Result} {f : Fault} (h : thenTick r = .fault f) : r = .fault f := by
  cases r <;> simp_all [thenTick]

theorem thenTick_refused {r : Result} {f : Refusal} (h : thenTick r = .refused f) : r = .refused f := by
  cases r <;> simp_all [thenTick]

/-- A completed step of a machine: it ran, fetched a word, and the word was UNKNOWN and reported, or its instruction's
meaning answered the state that the tick then ends. -/
theorem step_next_cases {s t : State} (h : step s = .next t) : s.status = .running ∧ ∃ w, fetch s = .ok w ∧
    ((∃ r, decodeWord w = .error r ∧ t = (s.advance.report (.unknownOpcode w s.pc)).tick) ∨
     ∃ i u, decodeWord w = .ok i ∧ exec i s.advance = .next u ∧ t = u.tick) := by
  have hs : s.status = .running := by
    unfold step at h
    split at h <;> simp_all
  refine ⟨hs, ?_⟩
  cases hf : fetch s with
  | error f =>
    rw [step_running hs, cycleDriver, hf] at h
    cases h
  | ok w =>
    refine ⟨w, rfl, ?_⟩
    cases hd : decodeWord w with
    | error r =>
      rw [step_unknown hs hf hd] at h
      cases h
      exact .inl ⟨r, rfl, rfl⟩
    | ok i =>
      rw [step_decoded hs hf hd] at h
      obtain ⟨u, hu, rfl⟩ := thenTick_next h
      exact .inr ⟨i, u, rfl, hu, rfl⟩

/-- A fault of a running machine is the fetch's or the routine's. -/
theorem step_fault_cases {s : State} {f : Fault} (hs : s.status = .running) (h : step s = .fault f) :
    (fetch s = .error f) ∨ ∃ w i, fetch s = .ok w ∧ decodeWord w = .ok i ∧ exec i s.advance = .fault f := by
  cases hf : fetch s with
  | error f' =>
    rw [step_running hs, cycleDriver, hf] at h
    cases h
    exact .inl rfl
  | ok w =>
    cases hd : decodeWord w with
    | error r => rw [step_unknown hs hf hd] at h; cases h
    | ok i =>
      rw [step_decoded hs hf hd] at h
      exact .inr ⟨w, i, rfl, hd, thenTick_fault h⟩

/-- A refusal of a running machine is the routine's. -/
theorem step_refused_cases {s : State} {r : Refusal} (hs : s.status = .running) (h : step s = .refused r) :
    ∃ w i, fetch s = .ok w ∧ decodeWord w = .ok i ∧ exec i s.advance = .refused r := by
  cases hf : fetch s with
  | error f' => rw [step_running hs, cycleDriver, hf] at h; cases h
  | ok w =>
    cases hd : decodeWord w with
    | error r => rw [step_unknown hs hf hd] at h; cases h
    | ok i =>
      rw [step_decoded hs hf hd] at h
      exact ⟨w, i, rfl, hd, thenTick_refused h⟩

/-! ### What the meanings share -/

/-- A completed `withBlock` ran its continuation. -/
theorem withBlock_next {instr : Instr} {s t : State} {n : Nat} {k : List Nat → State}
    (h : withBlock instr s n k = .next t) :
    BlockPasses s.params s.i.toNat n ∧ t = k ((List.range' 0 n).map (physAddr s.i.toNat)) := by
  rcases withBlock_cases instr s n k with ⟨hb, e⟩ | ⟨-, -, -, e⟩ <;> rw [e] at h <;> cases h
  exact ⟨hb, rfl⟩

/-- A completed `aluVF` wrote the result and the flag. -/
theorem aluVF_next {instr : Instr} {x y : Reg} {readsY : Bool} {op : AluOp} {s t : State}
    (h : aluVF instr x y readsY op s = .next t) :
    t = (s.setV x (op s.v[x] s.v[y]).1).setV Reg.vF (flagByte (op s.v[x] s.v[y]).2) := by
  unfold aluVF at h
  split at h
  · cases h
  · cases h; rfl

/-- No meaning writes `STATUS`, the keypad or the parameters (R34, R38). -/
theorem exec_keeps {i : Instr} {s t : State} (h : exec i s = .next t) :
    t.status = s.status ∧ t.key = s.key ∧ t.params = s.params := by
  cases i
  case ret ign =>
    simp only [exec, execRet] at h
    split at h <;> cases h
    · rename_i hp
      unfold State.pop at hp
      split at hp <;> cases hp
      exact ⟨rfl, rfl, rfl⟩
    · exact ⟨rfl, rfl, rfl⟩
  case call nnn =>
    simp only [exec, execCall] at h
    split at h <;> cases h
    · rename_i hp
      unfold State.push at hp
      split at hp <;> cases hp
      exact ⟨rfl, rfl, rfl⟩
    · exact ⟨rfl, rfl, rfl⟩
  case seImm | sneImm | seReg | sneReg =>
    cases h
    exact ⟨State.skipIf_status .., State.skipIf_key .., State.skipIf_params ..⟩
  case skp | sknp =>
    simp only [exec, execSkp, execSknp] at h
    split at h <;> cases h
    exact ⟨State.skipIf_status .., State.skipIf_key .., State.skipIf_params ..⟩
  case ldFVx =>
    simp only [exec, execLdFVx] at h
    split at h <;> cases h
    exact ⟨rfl, rfl, rfl⟩
  case ldVxK =>
    simp only [exec, execLdVxK] at h
    split at h <;> cases h <;> exact ⟨rfl, rfl, rfl⟩
  case addReg | subReg | shr | subnReg | shl => obtain rfl := aluVF_next h; exact ⟨rfl, rfl, rfl⟩
  case ldBVx | ldMemVx | ldVxMem | drw => obtain ⟨-, rfl⟩ := withBlock_next h; exact ⟨rfl, rfl, rfl⟩
  all_goals cases h; exact ⟨rfl, rfl, rfl⟩

/-- A completed step keeps the machine running and changes neither the keypad nor the parameters. -/
theorem step_keeps {s t : State} (h : step s = .next t) :
    t.status = .running ∧ t.key = s.key ∧ t.params = s.params := by
  obtain ⟨hs, w, -, ⟨r, -, rfl⟩ | ⟨i, u, -, hu, rfl⟩⟩ := step_next_cases h
  · exact ⟨hs, rfl, rfl⟩
  · obtain ⟨h1, h2, h3⟩ := exec_keeps hu
    exact ⟨h1.trans hs, h2, h3⟩

end Sys2Proof.Machine
end

