-- ==== Sys2Proof/Tests/Slice0.lean ====
section
/-! SUPPORT. The model's own tests. Every expected value is copied from the spec: the words of 30_encoding.md R75 to R82 and
the vectors of 95_test_vectors.md, named in the comments. The second half shows, for every obligation with hypotheses,
states and operands that meet them. -/

namespace Sys2Proof.Tests

open Sys2Proof.Machine

/-! ### Helpers -/

/-- `s` with general registers set, by number and value. -/
def withRegs (regs : List (Nat × Nat)) (s : State := State.reset) : State :=
  regs.foldl (fun s p => s.setV (Fin.ofNat 16 p.1) (BitVec.ofNat 8 p.2)) s

/-- `s` with `I` set. -/
def withI (a : Word) (s : State := State.reset) : State := s.setI a

/-- `s` with one key held. -/
def withKey (k : Fin 16) (s : State := State.reset) : State := s.keySet k true

/-- `s` with consecutive bytes of memory set. -/
def withBytes (a : Nat) (bs : List Byte) (s : State := State.reset) : State := s.writeMem (List.range' a bs.length) bs

/-- `s` with `n` live stack entries, each 0x20A. -/
def withStack (n : Fin 17) (s : State := State.reset) : State :=
  { s with sp := n, stack := Vector.replicate 16 0x20A#16 }

/-- The reset state under other policies. -/
def underWrap12 : State := State.create { defaultParams with memAddr := .wrap12 }
def underMask4 : State := State.create { defaultParams with keyIndex := .mask4, fontIndex := .mask4 }
def underFontFault : State := State.create { defaultParams with fontIndex := .fault }
def underRefuse : State := State.create { defaultParams with vfDest := .refuse }

/-- One step of `s` with the word `w` at `a` and `PC = a`. -/
def runAt (a : Word) (w : Nat) (s : State := State.reset) : Result := step ((s.setPC a).withFetchWord 16 w)

/-- A completed step whose state satisfies `p`. -/
def next (r : Result) (p : State → Bool) : Bool := match r with | .next t => p t | _ => false

/-- A step that faults with `f`. -/
def faults (r : Result) (f : Fault) : Bool := match r with | .fault g => g == f | _ => false

/-- A step that refuses with `f`. -/
def refuses (r : Result) (f : Refusal) : Bool := match r with | .refused g => g == f | _ => false

/-- The set pixels of a state are exactly these distinct ones. -/
def pixelsAre (s : State) (ps : List Pixel) : Bool := ps.all s.fb.get && (s.fbOut.filter id).length == ps.length

/-! ### WellFormed: each check refuses an ill-formed term (R84) -/

theorem test_wellFormed_cls : (Instr.cls 0x0E).wellFormed = true ∧ (Instr.cls 0x12).wellFormed = false := by decide
theorem test_wellFormed_ret : (Instr.ret 0x0E).wellFormed = true ∧ (Instr.ret 0xAB).wellFormed = false := by decide
theorem test_wellFormed_seReg : (Instr.seReg 1 2 0).wellFormed = true ∧ (Instr.seReg 1 2 7).wellFormed = false := by decide
theorem test_wellFormed_shr : (Instr.shr 1 0).wellFormed = true ∧ (Instr.shr 1 2).wellFormed = false := by decide
theorem test_wellFormed_shl : (Instr.shl 1 0).wellFormed = true ∧ (Instr.shl 1 2).wellFormed = false := by decide
theorem test_wellFormed_skp : (Instr.skp 1 9).wellFormed = true ∧ (Instr.skp 1 0).wellFormed = false := by decide
theorem test_wellFormed_sknp : (Instr.sknp 1 0xA).wellFormed = true ∧ (Instr.sknp 1 1).wellFormed = false := by decide

/-! ### Decoding: words written out bit by bit from the encodings of R71 to R79 -/

theorem test_decode_family0 :
    decodeWord 0b0000_0000_1110_0000#16 = .ok (.cls 0x0E) ∧ decodeWord 0b0000_0000_1110_1110#16 = .ok (.ret 0x0E) := by decide
theorem test_decode_jumps :
    decodeWord 0b0001_0010_0000_0100#16 = .ok (.jp 0x204) ∧ decodeWord 0b0010_0010_0001_0000#16 = .ok (.call 0x210) ∧
    decodeWord 0b1011_0011_0000_0000#16 = .ok (.jpV0 0x300) := by decide
theorem test_decode_skips :
    decodeWord 0b0011_1010_0000_0010#16 = .ok (.seImm 0xA 0x02) ∧
    decodeWord 0b0100_1010_0000_0011#16 = .ok (.sneImm 0xA 0x03) ∧
    decodeWord 0b0101_0001_0010_0000#16 = .ok (.seReg 1 2 0) ∧
    decodeWord 0b1001_0001_0010_0000#16 = .ok (.sneReg 1 2) := by decide
theorem test_decode_immediates :
    decodeWord 0b0110_1010_0000_0010#16 = .ok (.ldImm 0xA 0x02) ∧
    decodeWord 0b0111_0001_1111_1111#16 = .ok (.addImm 1 0xFF) ∧
    decodeWord 0b1100_0011_0000_1111#16 = .ok (.rnd 3 0x0F) ∧
    decodeWord 0b1010_0011_0000_0000#16 = .ok (.ldI 0x300) := by decide
theorem test_decode_family8 :
    decodeWord 0b1000_0001_0010_0000#16 = .ok (.ldReg 1 2) ∧ decodeWord 0b1000_0001_0010_0001#16 = .ok (.orReg 1 2) ∧
    decodeWord 0b1000_0001_0010_0010#16 = .ok (.andReg 1 2) ∧ decodeWord 0b1000_0001_0010_0011#16 = .ok (.xorReg 1 2) ∧
    decodeWord 0b1000_0001_0010_0100#16 = .ok (.addReg 1 2) ∧ decodeWord 0b1000_0001_0010_0101#16 = .ok (.subReg 1 2) ∧
    decodeWord 0b1000_0001_0010_0110#16 = .ok (.shr 1 2) ∧ decodeWord 0b1000_0001_0010_0111#16 = .ok (.subnReg 1 2) ∧
    decodeWord 0b1000_0001_0010_1110#16 = .ok (.shl 1 2) := by decide
theorem test_decode_draw : decodeWord 0b1101_0001_0010_0101#16 = .ok (.drw 1 2 5) := by decide
theorem test_decode_familyE :
    decodeWord 0b1110_0001_1001_1110#16 = .ok (.skp 1 9) ∧ decodeWord 0b1110_0001_1010_0001#16 = .ok (.sknp 1 0xA) := by
  decide
theorem test_decode_familyF :
    decodeWord 0b1111_0100_0000_0111#16 = .ok (.ldVxDT 4) ∧ decodeWord 0b1111_0001_0000_1010#16 = .ok (.ldVxK 1) ∧
    decodeWord 0b1111_0011_0001_0101#16 = .ok (.ldDTVx 3) ∧ decodeWord 0b1111_0011_0001_1000#16 = .ok (.ldSTVx 3) ∧
    decodeWord 0b1111_0010_0001_1110#16 = .ok (.addIVx 2) ∧ decodeWord 0b1111_0001_0010_1001#16 = .ok (.ldFVx 1) ∧
    decodeWord 0b1111_0001_0011_0011#16 = .ok (.ldBVx 1) ∧ decodeWord 0b1111_0001_0101_0101#16 = .ok (.ldMemVx 1) ∧
    decodeWord 0b1111_0001_0110_0101#16 = .ok (.ldVxMem 1) := by decide

/-- V-DEC-2, 3, 5, 9, 10, 11: the wider match sets of the selector table. -/
theorem test_decode_ignored_bits :
    decodeWord 0x0000#16 = .ok (.cls 0x00) ∧ decodeWord 0x0FF0#16 = .ok (.cls 0xFF) ∧
    decodeWord 0x0ABE#16 = .ok (.ret 0xAB) ∧ decodeWord 0x00FE#16 = .ok (.ret 0x0F) ∧
    decodeWord 0x5121#16 = .ok (.seReg 1 2 1) ∧ decodeWord 0x81F6#16 = .ok (.shr 1 0xF) ∧
    decodeWord 0xE00E#16 = .ok (.skp 0 0) ∧ decodeWord 0xE091#16 = .ok (.sknp 0 9) := by decide

/-- V-DEC-4, 7, 8, 12, 13: UNKNOWN words, rejected by name. -/
theorem test_decode_unknown :
    ([0x0123#16, 0x00FF#16, 0x00C1#16, 0x0001#16, 0x9121#16, 0x912F#16, 0x8008#16, 0x8009#16, 0x800D#16, 0x800F#16,
      0xE09F#16, 0xE000#16, 0xF000#16, 0xF030#16, 0xF075#16, 0xF01F#16].all fun w => decodeWord w == .error (.unknown w)) =
    true := by decide

/-- R70: an instruction is two bytes, the first the high one. -/
theorem test_decode_bytes :
    decode [0x6A, 0x02, 0x3A] = .ok (.ldImm 0xA 0x02, [0x3A]) ∧ decode [0x6A] = .error .truncated ∧
    decodeTableWord 16 0x6A02 = some (.ldImm 0xA 0x02) := by decide

/-- R84: the canonical words. -/
theorem test_encode_canonical :
    encode (.cls 0x0E) = 0x00E0#16 ∧ encode (.ret 0x0E) = 0x00EE#16 ∧ encode (.skp 2 9) = 0xE29E#16 ∧
    encode (.sknp 2 0xA) = 0xE2A1#16 ∧ encodeBytes (.drw 1 2 5) = [0xD1, 0x25] := by decide

/-! ### The cycle driver (V-CYC) -/

/-- V-CYC-1. -/
theorem test_cycle_fetch_is_big_endian :
    next (step (withBytes 0x200 [0x60, 0x7F])) (fun t => t.v[0] == 0x7F && t.pc == 0x202) = true := by decide
/-- V-CYC-2. -/
theorem test_cycle_unknown_word_reports_and_ticks :
    next (runAt 0x200 0x8008 { State.reset with dt := 2, st := 1 }) (fun t =>
      t.reportOut == [.unknownOpcode 0x8008 0x200] && t.pc == 0x202 && t.dt == 1 && t.st == 0) = true := by decide
/-- V-CYC-3, V-CYC-4. -/
theorem test_cycle_tick_saturates :
    next (runAt 0x200 0x6000) (fun t => t.dt == 0 && t.st == 0) = true ∧
    next (runAt 0x200 0x6000 { State.reset with dt := 255, st := 255 }) (fun t => t.dt == 254 && t.st == 254) = true := by
  decide
/-- V-CYC-5, V-CYC-6. -/
theorem test_cycle_odd_and_last_pc :
    next (runAt 0x201 0x6105) (fun t => t.v[1] == 5 && t.pc == 0x203) = true ∧
    next (runAt 0xFFE 0x6105) (fun t => t.v[1] == 5 && t.pc == 0x1000) = true := by decide
/-- V-CYC-7, V-CYC-8: nothing but `STATUS` changes. -/
theorem test_cycle_fetch_out_of_range :
    faults (step (State.reset.setPC 0x1000)) (.fetchRange 0x1000) = true ∧
    faults (step (State.reset.setPC 0xFFF)) (.fetchRange 0xFFF) = true ∧
    (State.reset.setPC 0xFFF).afterStep = { State.reset.setPC 0xFFF with status := .faulted (.fetchRange 0xFFF) } := by
  decide +kernel
/-- V-CYC-9. -/
theorem test_cycle_fetch_wraps_under_wrap12 :
    next (step ((withBytes 0xFFF [0x61] (withBytes 0 [0x05] underWrap12)).setPC 0xFFF))
      (fun t => t.v[1] == 5 && t.pc == 0x1001) = true := by decide
/-- V-CYC-10, V-HOST-5. -/
theorem test_cycle_stopped_until_reset :
    let s : State := { State.reset with status := .faulted (.fetchRange 0x1000), dt := 3 }
    faults (step s) (.fetchRange 0x1000) = true ∧ s.afterStep = s ∧ s.resetPort = State.reset := by decide +kernel

/-! ### Control transfer (V-FLW) -/

/-- V-FLW-1, V-FLW-2. -/
theorem test_jp : next (runAt 0x200 0x1204) (fun t => t.pc == 0x204) = true ∧
    next (runAt 0x204 0x1204) (fun t => t.pc == 0x204) = true := by decide
/-- V-FLW-3. -/
theorem test_call_pushes :
    next (runAt 0x208 0x2210) (fun t => t.stack[0] == 0x20A && t.sp == 1 && t.pc == 0x210) = true := by decide
/-- V-FLW-4. -/
theorem test_call_overflow :
    next (runAt 0x300 0x2400 (withStack 16)) (fun t => t.reportOut == [.stackOverflow 0x2400 0x300] && t.sp == 16 &&
      t.stack == (withStack 16).stack && t.pc == 0x302) = true := by decide
/-- V-FLW-5. -/
theorem test_ret_pops :
    next (runAt 0x214 0x00EE (withStack 1)) (fun t => t.sp == 0 && t.pc == 0x20A && t.stack[0] == 0x20A) = true := by decide
/-- V-FLW-6. -/
theorem test_ret_underflow :
    next (runAt 0x300 0x00EE) (fun t => t.reportOut == [.stackUnderflow 0x00EE 0x300] && t.pc == 0x302) = true := by decide
/-- V-FLW-7, V-FLW-8. -/
theorem test_seImm : next (runAt 0x202 0x3A02 (withRegs [(10, 2)])) (fun t => t.pc == 0x206) = true ∧
    next (runAt 0x202 0x3A03 (withRegs [(10, 2)])) (fun t => t.pc == 0x204) = true := by decide
/-- V-FLW-9. -/
theorem test_sneImm : next (runAt 0x202 0x4A02 (withRegs [(10, 2)])) (fun t => t.pc == 0x204) = true ∧
    next (runAt 0x202 0x4A03 (withRegs [(10, 2)])) (fun t => t.pc == 0x206) = true := by decide
/-- V-FLW-10, V-FLW-11. -/
theorem test_seReg : next (runAt 0x300 0x5127 (withRegs [(1, 7), (2, 7)])) (fun t => t.pc == 0x304) = true ∧
    next (runAt 0x300 0x5120 (withRegs [(1, 7), (2, 8)])) (fun t => t.pc == 0x302) = true := by decide
/-- V-FLW-12, S11. -/
theorem test_sneReg : next (runAt 0x300 0x9120 (withRegs [(1, 1), (2, 2)])) (fun t => t.pc == 0x304) = true ∧
    next (runAt 0x300 0x9121 (withRegs [(1, 1), (2, 2)]))
      (fun t => t.pc == 0x302 && t.reportOut == [.unknownOpcode 0x9121 0x300]) = true := by decide
/-- V-FLW-14, V-FLW-15. -/
theorem test_jpV0 : next (runAt 0x200 0xB300 (withRegs [(0, 0x10)])) (fun t => t.pc == 0x310) = true ∧
    next (runAt 0x200 0xBFFF (withRegs [(0, 0xFF)])) (fun t => t.pc == 0x10FE && faults (step t) (.fetchRange 0x10FE)) = true := by
  decide

/-! ### The 8-bit ALU (V-ALU) -/

/-- V-ALU-1. -/
theorem test_ldImm : next (runAt 0x200 0x61AB (withRegs [(15, 9)])) (fun t => t.v[1] == 0xAB && t.v[15] == 9) = true := by
  decide
/-- V-ALU-2, V-ALU-34. -/
theorem test_addImm : next (runAt 0x200 0x7101 (withRegs [(1, 0xFF)])) (fun t => t.v[1] == 0 && t.v[15] == 0) = true ∧
    next (runAt 0x200 0x7F01 (withRegs [(15, 0x10)])) (fun t => t.v[15] == 0x11) = true := by decide
/-- V-ALU-4. -/
theorem test_ldReg : next (runAt 0x200 0x8120 (withRegs [(2, 0x33)])) (fun t => t.v[1] == 0x33) = true := by decide
/-- V-ALU-5. -/
theorem test_orReg : next (runAt 0x200 0x8121 (withRegs [(1, 0xF0), (2, 0x0F), (15, 9)]))
    (fun t => t.v[1] == 0xFF && t.v[15] == 9) = true := by decide
/-- V-ALU-6. -/
theorem test_andReg : next (runAt 0x200 0x8122 (withRegs [(1, 0xF0), (2, 0x3C), (15, 9)]))
    (fun t => t.v[1] == 0x30 && t.v[15] == 9) = true := by decide
/-- V-ALU-7. -/
theorem test_xorReg : next (runAt 0x200 0x8123 (withRegs [(1, 0xFF), (2, 0x0F), (15, 9)]))
    (fun t => t.v[1] == 0xF0 && t.v[15] == 9) = true := by decide
/-- V-ALU-8, V-ALU-10. -/
theorem test_addReg : next (runAt 0x200 0x8124 (withRegs [(1, 0xFF), (2, 0x01)])) (fun t => t.v[1] == 0 && t.v[15] == 1) = true ∧
    next (runAt 0x200 0x8124 (withRegs [(1, 0x7F), (2, 0x80)])) (fun t => t.v[1] == 0xFF && t.v[15] == 0) = true := by decide
/-- V-ALU-28, V-ALU-33. -/
theorem test_addReg_names_VF : next (runAt 0x200 0x8F14 (withRegs [(15, 0xFF), (1, 0x01)])) (fun t => t.v[15] == 1) = true ∧
    next (runAt 0x200 0x81F4 (withRegs [(1, 2), (15, 9)])) (fun t => t.v[1] == 0x0B && t.v[15] == 0) = true := by decide
/-- V-ALU-13, V-ALU-14. -/
theorem test_subReg : next (runAt 0x200 0x8125 (withRegs [(1, 3), (2, 5)])) (fun t => t.v[1] == 0xFE && t.v[15] == 0) = true ∧
    next (runAt 0x200 0x8125 (withRegs [(1, 7), (2, 7), (15, 1)])) (fun t => t.v[1] == 0 && t.v[15] == 0) = true := by decide
/-- V-ALU-32. -/
theorem test_subReg_reads_VF_first :
    next (runAt 0x200 0x81F5 (withRegs [(1, 5), (15, 3)])) (fun t => t.v[1] == 2 && t.v[15] == 1) = true := by decide
/-- V-ALU-17, V-ALU-18. -/
theorem test_subnReg : next (runAt 0x200 0x8127 (withRegs [(1, 3), (2, 5)])) (fun t => t.v[1] == 2 && t.v[15] == 1) = true ∧
    next (runAt 0x200 0x8127 (withRegs [(1, 5), (2, 3)])) (fun t => t.v[1] == 0xFE && t.v[15] == 0) = true := by decide
/-- V-ALU-20, V-ALU-30. -/
theorem test_shr : next (runAt 0x200 0x81F6 (withRegs [(1, 0x81)])) (fun t => t.v[1] == 0x40 && t.v[15] == 1) = true ∧
    next (runAt 0x200 0x8F06 (withRegs [(15, 0x02)])) (fun t => t.v[15] == 0) = true := by decide
/-- V-ALU-23, V-ALU-24. -/
theorem test_shl : next (runAt 0x200 0x810E (withRegs [(1, 0x81)])) (fun t => t.v[1] == 0x02 && t.v[15] == 1) = true ∧
    next (runAt 0x200 0x810E (withRegs [(1, 0x40)])) (fun t => t.v[1] == 0x80 && t.v[15] == 0) = true := by decide
/-- V-ALU-27: whatever byte is drawn. -/
theorem test_rnd_mask_zero : ∃ t, exec (.rnd 1 0x00) (withRegs [(1, 0xAB)]) = .next t ∧ t.v[(1 : Fin 16)] = 0 ∧ t.draws = 1 :=
  ⟨_, rfl, by simp [State.setV], rfl⟩
/-- V-ALU-35. -/
theorem test_vfDest_refuse :
    ([0x8F14#16, 0x81F4#16, 0x81F5#16, 0x81F7#16, 0x8F06#16, 0x8F0E#16].all fun w =>
      refuses (runAt 0x200 w.toNat underRefuse) (.vfOperand w 0x200)) = true := by decide
/-- V-ALU-36, V-ALU-37. -/
theorem test_vfDest_refuse_not :
    ([0x81F6, 0x81FE, 0x81F1, 0x8F10].all fun w => next (runAt 0x200 w underRefuse) (fun t => t.pc == 0x202)) = true := by
  decide

/-! ### Index register and memory blocks (V-IDX) -/

/-- V-IDX-1. -/
theorem test_ldI : next (runAt 0x200 0xA300) (fun t => t.i == 0x300) = true := by decide
/-- V-IDX-3, V-IDX-3b. -/
theorem test_addIVx : next (runAt 0x200 0xF11E (withI 0xFFFF (withRegs [(1, 1)]))) (fun t => t.i == 0 && t.v[15] == 0) = true ∧
    next (runAt 0x200 0xF11E (withI 0x0FFF (withRegs [(1, 1)]))) (fun t => t.i == 0x1000 && t.v[15] == 0) = true := by decide
/-- V-IDX-4 (the source's S7), V-IDX-6 under the default policy. -/
theorem test_ldFVx : next (runAt 0x200 0xF029 (withRegs [(0, 0x0A)])) (fun t => t.i == 0x082) = true ∧
    next (runAt 0x200 0xF029 (withRegs [(0, 0xFF)])) (fun t => t.i == 0x54B) = true := by decide
/-- V-IDX-6, V-IDX-7 under the other policies. -/
theorem test_ldFVx_policies : next (runAt 0x200 0xF029 (withRegs [(0, 0x1A)] underMask4)) (fun t => t.i == 0x082) = true ∧
    faults (runAt 0x200 0xF029 (withRegs [(0, 0x10)] underFontFault)) (.fontRange 0xF029 0x200) = true := by decide
/-- V-IDX-8 (the source's S8), V-IDX-10. -/
theorem test_ldBVx : next (runAt 0x200 0xF033 (withI 0x300 (withRegs [(0, 157)])))
      (fun t => [0x300, 0x301, 0x302].map t.readMem == [1, 5, 7] && t.i == 0x300) = true ∧
    next (runAt 0x200 0xF033 (withI 0xFFD (withRegs [(0, 157)])))
      (fun t => [0xFFD, 0xFFE, 0xFFF].map t.readMem == [1, 5, 7]) = true := by decide
/-- V-IDX-11, V-IDX-12. -/
theorem test_ldBVx_policies :
    faults (runAt 0x200 0xF033 (withI 0xFFE (withRegs [(0, 157)]))) (.memRange 0xF033 0x200 0x1000) = true ∧
    next (runAt 0x200 0xF033 (withI 0xFFE (withRegs [(0, 157)] underWrap12)))
      (fun t => [0xFFE, 0xFFF, 0x000].map t.readMem == [1, 5, 7]) = true := by decide
/-- V-IDX-13, V-IDX-19. -/
theorem test_ldMemVx : next (runAt 0x200 0xF155 (withI 0x400 (withRegs [(0, 1), (1, 2)])))
      (fun t => [0x400, 0x401].map t.readMem == [1, 2] && t.i == 0x400) = true ∧
    next (runAt 0x200 0xF055 (withI 0x050)) (fun t => t.readMem 0x050 == 0) = true := by decide
/-- V-IDX-15. -/
theorem test_ldMemVx_fault : faults (runAt 0x200 0xF255 (withI 0xFFE)) (.memRange 0xF255 0x200 0x1000) = true := by decide
/-- V-IDX-17. -/
theorem test_ldVxMem : next (runAt 0x200 0xF465 (withI 0x082))
    (fun t => t.v.toList.take 6 == [0xF0, 0x90, 0xF0, 0x90, 0x90, 0x00]) = true := by decide
/-- V-IDX-16. -/
theorem test_ldVxMem_keeps_I : next (runAt 0x200 0xF265 (withI 0x300 (withBytes 0x300 [1, 5, 7])))
    (fun t => t.v.toList.take 3 == [1, 5, 7] && t.i == 0x300) = true := by decide

/-! ### The framebuffer (V-DSP) -/

/-- V-DSP-1. -/
theorem test_cls : next (runAt 0x200 0x00E0
      { withRegs [(15, 9)] with fb := Vector.replicate 32 (Vector.replicate 64 true) })
    (fun t => pixelsAre t [] && t.v[15] == 9) = true := by decide +kernel
/-- Program P4, step 5: glyph A at (63, 31), the source's S5. -/
theorem test_drw_wraps : next (runAt 0x200 0xD125 (withI 0x082 (withRegs [(1, 63), (2, 31)])))
    (fun t => t.v[15] == 0 && pixelsAre t [(63, 31), (0, 31), (1, 31), (2, 31), (63, 0), (2, 0), (63, 1), (0, 1), (1, 1),
      (2, 1), (63, 2), (2, 2), (63, 3), (2, 3)]) = true := by decide +kernel
/-- V-DSP-6: a collision. -/
theorem test_drw_collision :
    next (runAt 0x200 0xD121
      { withI 0x300 (withBytes 0x300 [0xC0]) with fb := Framebuffer.blank.flip (1, 0) })
    (fun t => pixelsAre t [(0, 0)] && t.v[15] == 1) = true := by decide +kernel

/-! ### Keypad and timers (V-KEY, V-TMR) -/

/-- V-KEY-1, V-KEY-2. -/
theorem test_skp : next (runAt 0x300 0xE19E (withKey 5 (withRegs [(1, 5)]))) (fun t => t.pc == 0x304) = true ∧
    next (runAt 0x300 0xE19E (withRegs [(1, 5)])) (fun t => t.pc == 0x302) = true := by decide
/-- V-KEY-5. -/
theorem test_skp_policies : faults (runAt 0x300 0xE19E (withRegs [(1, 0x13)])) (.keyRange 0xE19E 0x300) = true ∧
    next (runAt 0x300 0xE19E (withKey 3 (withRegs [(1, 0x13)] underMask4))) (fun t => t.pc == 0x304) = true := by decide
/-- V-KEY-3, V-KEY-4. -/
theorem test_sknp : next (runAt 0x300 0xE1A1 (withRegs [(1, 5)])) (fun t => t.pc == 0x304) = true ∧
    next (runAt 0x300 0xE1A1 (withKey 5 (withRegs [(1, 5)]))) (fun t => t.pc == 0x302) = true := by decide
/-- V-KEY-6. -/
theorem test_ldVxK : next (runAt 0x300 0xF40A (withKey 7 (withKey 3))) (fun t => t.v[4] == 3 && t.pc == 0x302) = true := by
  decide
/-- V-KEY-7. -/
theorem test_ldVxK_waits : next (runAt 0x300 0xF40A { withRegs [(4, 9)] with dt := 2 })
    (fun t => t.pc == 0x300 && t.v[4] == 9 && t.dt == 1) = true := by decide
/-- V-TMR-1. -/
theorem test_ldVxDT : next (runAt 0x300 0xF407 { State.reset with dt := 4 }) (fun t => t.v[4] == 4 && t.dt == 3) = true := by
  decide
/-- V-TMR-2, V-TMR-3. -/
theorem test_ldDTVx : next (runAt 0x300 0xF315 (withRegs [(3, 5)])) (fun t => t.dt == 4) = true ∧
    next (runAt 0x300 0xF315 (withRegs [(3, 1)])) (fun t => t.dt == 0) = true := by decide
/-- V-TMR-4, V-TMR-5. -/
theorem test_ldSTVx : next (runAt 0x300 0xF318 (withRegs [(3, 2)])) (fun t => t.st == 1 && t.tone) = true ∧
    next (runAt 0x300 0xF318 (withRegs [(3, 1)])) (fun t => t.st == 0 && !t.tone) = true := by decide

/-! ### Host operations (V-HOST) -/

/-- V-HOST-3, V-HOST-4. -/
theorem test_load :
    (State.reset.setPC 0x400).load [] = State.reset ∧
    [0x200, 0x201, 0x202].map ((withBytes 0x200 [0xAA, 0xBB, 0xCC]).load [0x12, 0x34]).readMem = [0x12, 0x34, 0xCC] := by
  decide +kernel
/-- V-HOST-2. -/
theorem test_load_too_large : (State.reset.setPC 0x400).load (List.replicate 3585 0x55) =
    (State.reset.setPC 0x400).report (.programTooLarge 3585) := by decide +kernel
/-- R200: the codes of the events. -/
theorem test_codes : [Report.unknownOpcode 0 0, .stackUnderflow 0 0, .stackOverflow 0 0, .programTooLarge 0].map Report.code =
      [1, 2, 3, 4] ∧
    [Fault.fetchRange 0, .memRange 0 0 0, .keyRange 0 0, .fontRange 0 0].map Fault.code = [16, 17, 18, 19] ∧
    (Refusal.vfOperand 0 0).code = some 32 := by decide

/-! ### Witnesses: for every obligation with hypotheses, states and operands that meet them, one per clause, at boundary
values -/

/-- The reset state about to run `w`. -/
def placed (w : Nat) (s : State := State.reset) : State := s.withFetchWord 16 w

theorem next_exists {r : Result} {p : State → Bool} (h : next r p = true) : ∃ t, r = .next t ∧ p t = true := by
  cases r <;> simp_all [next]

theorem faults_eq {r : Result} {f : Fault} (h : faults r f = true) : r = .fault f := by
  cases r <;> simp_all [faults]

theorem refuses_eq {r : Result} {f : Refusal} (h : refuses r f = true) : r = .refused f := by
  cases r <;> simp_all [refuses]

theorem witness_EncodeInvertsDecode : decodeWord 0x0ABE#16 = .ok (.ret 0xAB) := by decide

theorem witness_PrimarySelectorAloneDecides :
    (0x1000#16).extractLsb' 12 4 = 0x1#4 ∧ (0x2FFF#16).extractLsb' 12 4 = 0x2#4 ∧ (0x3000#16).extractLsb' 12 4 = 0x3#4 ∧
    (0x4FFF#16).extractLsb' 12 4 = 0x4#4 ∧ (0x5127#16).extractLsb' 12 4 = 0x5#4 ∧ (0x6FFF#16).extractLsb' 12 4 = 0x6#4 ∧
    (0x7000#16).extractLsb' 12 4 = 0x7#4 ∧ (0xAFFF#16).extractLsb' 12 4 = 0xA#4 ∧ (0xB000#16).extractLsb' 12 4 = 0xB#4 ∧
    (0xC0FF#16).extractLsb' 12 4 = 0xC#4 ∧ (0xDFFF#16).extractLsb' 12 4 = 0xD#4 := by decide

theorem witness_SubSelectorsDecide :
    (0x0FFE#16).extractLsb' 12 4 = 0x0#4 ∧ (0x8FFF#16).extractLsb' 12 4 = 0x8#4 ∧ (0x9120#16).extractLsb' 12 4 = 0x9#4 ∧
    (0xE000#16).extractLsb' 12 4 = 0xE#4 ∧ (0xFF65#16).extractLsb' 12 4 = 0xF#4 := by decide

/-- In range at the last fetchable address and, under `wrap12`, at 0xFFF; out of range at 0xFFF and 0xFFFF. -/
theorem witness_FetchReadsBigEndianOrFaults :
    BlockPasses State.reset.params (State.reset.setPC 0xFFE).pc.toNat 2 ∧
    BlockPasses underWrap12.params (underWrap12.setPC 0xFFF).pc.toNat 2 ∧
    (State.reset.params.memAddr = .fault ∧ (State.reset.setPC 0xFFF).pc.toNat ≥ 0xFFF ∧
      (State.reset.setPC 0xFFF).status = .running) ∧
    (State.reset.setPC 0xFFFF).pc.toNat ≥ 0xFFF := by unfold BlockPasses; decide

/-- A word that completes, one that faults, one that is refused. -/
theorem witness_StepRunsTheDecodedInstruction :
    (fetch (placed 0x6A02) = .ok 0x6A02#16 ∧ decodeWord 0x6A02#16 = .ok (.ldImm 0xA 0x02) ∧
      ∃ t, exec (.ldImm 0xA 0x02) (placed 0x6A02).advance = .next t ∧ (t.pc == 0x202) = true) ∧
    (fetch (placed 0xF033 (withI 0xFFF)) = .ok 0xF033#16 ∧ decodeWord 0xF033#16 = .ok (.ldBVx 0) ∧
      exec (.ldBVx 0) (placed 0xF033 (withI 0xFFF)).advance = .fault (.memRange 0xF033 0x200 0x1000)) ∧
    (fetch (placed 0x8F14 underRefuse) = .ok 0x8F14#16 ∧ decodeWord 0x8F14#16 = .ok (.addReg 0xF 1) ∧
      exec (.addReg 0xF 1) (placed 0x8F14 underRefuse).advance = .refused (.vfOperand 0x8F14 0x200)) :=
  ⟨⟨by decide, by decide, next_exists (by decide)⟩, ⟨by decide, by decide, faults_eq (by decide)⟩,
    ⟨by decide, by decide, refuses_eq (by decide)⟩⟩

theorem witness_UnknownWordIsReportedAndDoesNothing :
    (placed 0x9121).status = .running ∧ fetch (placed 0x9121) = .ok 0x9121#16 ∧
    decodeWord 0x9121#16 = .error (.unknown 0x9121#16) := by decide

/-- FX15, FX18, and a word that is neither. -/
theorem witness_TimersTickOnceEveryCompletedStep :
    ∀ w ∈ [0xF315#16, 0xFF18#16, 0x00E0#16], fetch (placed w.toNat) = .ok w ∧ ∃ t, step (placed w.toNat) = .next t := by
  intro w hw
  simp only [List.mem_cons, List.not_mem_nil, or_false] at hw
  rcases hw with rfl | rfl | rfl <;> exact ⟨by decide, _, rfl⟩

/-- Every arm: jumps; CALL at depth 15 and 16; RET at depth 16, 1 and 0; BNNN; each skip taken and not taken; FX0A with and
without a key; another word. -/
theorem witness_ProgramCounterAfterEachInstruction :
    ([(0x1FFF, State.reset), (0x2FFF, withStack 15), (0x2FFF, withStack 16), (0x00EE, withStack 16), (0x00EE, withStack 1),
      (0x00EE, State.reset), (0xBFFF, withRegs [(0, 255)]), (0x3100, State.reset), (0x3101, State.reset), (0x4100, State.reset),
      (0x4101, State.reset), (0x5127, State.reset), (0x5120, withRegs [(1, 1)]), (0x9120, State.reset),
      (0x9120, withRegs [(1, 1)]), (0xEF9E, withKey 15 (withRegs [(15, 15)])), (0xE09E, State.reset), (0xE0A1, State.reset),
      (0xE0A1, withKey 0), (0xF00A, withKey 15), (0xF00A, State.reset), (0x6000, State.reset)].all fun p =>
        next (step (placed p.1 p.2)) fun _ => fetch (placed p.1 p.2) == .ok (BitVec.ofNat 16 p.1)) = true := by decide +kernel

/-- Depths 0, 15 and 16. -/
theorem witness_CallPushesAndJumpsOrReports :
    (withStack 0).sp.val = (0 : Fin 16).val ∧ (withStack 15).sp.val = (15 : Fin 16).val ∧ (withStack 16).sp.val = 16 := by
  decide

/-- Depths 1, 16 and 0. -/
theorem witness_RetPopsOrReports :
    (withStack 1).sp.val = (0 : Fin 16).val + 1 ∧ (withStack 16).sp.val = (15 : Fin 16).val + 1 ∧ (withStack 0).sp.val = 0 := by
  decide

/-- A CALL at depth 15, and the state it leaves as the one RET is reached in. -/
theorem witness_RetResumesAfterTheCall :
    (withStack 15).sp.val < 16 ∧ ∃ t, exec (.call 0xFFF) (withStack 15) = .next t ∧ (t.sp == 16) = true :=
  ⟨by decide, next_exists (by decide)⟩

/-- `flag_last` with VF named; `refuse` with VF not named; `refuse` with `X` and with `Y` naming VF. -/
theorem witness_AddSetsCarry :
    State.reset.params.vfDest = .flagLast ∧ (Reg.v0 ≠ Reg.vF ∧ (14 : Reg) ≠ Reg.vF) ∧
    underRefuse.params.vfDest = .refuse ∧ ((15 : Reg) = Reg.vF ∨ (0 : Reg) = Reg.vF) ∧ ((0 : Reg) = Reg.vF ∨ (15 : Reg) = Reg.vF) := by
  decide

theorem witness_SubtractSetsStrictGreater :
    State.reset.params.vfDest = .flagLast ∧ (Reg.v0 ≠ Reg.vF ∧ (14 : Reg) ≠ Reg.vF) ∧
    underRefuse.params.vfDest = .refuse ∧ ((15 : Reg) = Reg.vF ∨ (15 : Reg) = Reg.vF) := by decide

theorem witness_ShiftsSetTheBitShiftedOut :
    State.reset.params.vfDest = .flagLast ∧ (14 : Reg) ≠ Reg.vF ∧ underRefuse.params.vfDest = .refuse ∧ (15 : Reg) = Reg.vF := by
  decide

theorem witness_RandomByteUnderMask : (0x00#8 = 0x00#8 ∧ 0xFF#8 = 0xFF#8) ∧ (15 : Reg) ≠ 0 := by decide

/-- FX65 with `X = F` writes VF. -/
theorem witness_OnlyNamedRegistersAreWritten :
    fetch (placed 0xFF65 (withI 0x1F2)) = .ok 0xFF65#16 ∧ decodeWord 0xFF65#16 = .ok (.ldVxMem 15) ∧
    ∃ t, step (placed 0xFF65 (withI 0x1F2)) = .next t ∧ (t.v[15] != (placed 0xFF65 (withI 0x1F2)).v[15]) = true :=
  ⟨by decide, by decide, next_exists (by decide)⟩

/-- Digits 15 and 16 under each policy. -/
theorem witness_FontIndexUnderEachPolicy :
    State.reset.params.fontIndex = .formula ∧ ((withRegs [(0, 15)]).v[(0 : Fin 16)]).toNat ≤ 15 ∧
    underMask4.params.fontIndex = .mask4 ∧ underFontFault.params.fontIndex = .fault ∧
    ((withRegs [(0, 16)] underFontFault).v[(0 : Fin 16)]).toNat > 15 := by decide

/-- Three bytes at 0xFFD pass; at 0xFFE they fault, or pass under `wrap12`; so does any `I` above 0xFFF. -/
theorem witness_DecimalDigitsAreStored :
    MemoryCanonical State.reset ∧ BlockPasses State.reset.params 0xFFD 3 ∧ BlockPasses underWrap12.params 0xFFE 3 ∧
    State.reset.params.memAddr = .fault ∧ (withI 0xFFE).i.toNat + 2 > 0xFFF ∧ (withI 0xFFFF).i.toNat + 2 > 0xFFF := by
  unfold MemoryCanonical BlockPasses; decide

theorem witness_RegistersAreStored :
    MemoryCanonical State.reset ∧ BlockPasses State.reset.params 0xFF0 ((15 : Reg).val + 1) ∧
    BlockPasses underWrap12.params 0xFFFF ((0 : Reg).val + 1) ∧ State.reset.params.memAddr = .fault ∧
    (withI 0xFF1).i.toNat + (15 : Reg).val > 0xFFF ∧ (withI 0x1000).i.toNat + (0 : Reg).val > 0xFFF := by
  unfold MemoryCanonical BlockPasses; decide

theorem witness_RegistersAreLoaded :
    BlockPasses State.reset.params 0xFF0 ((15 : Reg).val + 1) ∧ BlockPasses underWrap12.params 0xFFFF ((0 : Reg).val + 1) ∧
    State.reset.params.memAddr = .fault ∧ (withI 0xFF1).i.toNat + (15 : Reg).val > 0xFFF := by unfold BlockPasses; decide

/-- One word of each writer. -/
theorem witness_IndexWrittenOnlyByItsWriters :
    ([(0xAFFF, State.reset), (0xF029, withRegs [(0, 255)]), (0xF01E, withI 0xFFFF (withRegs [(0, 1)]))].all fun p =>
      next (step (placed p.1 p.2)) fun t =>
        fetch (placed p.1 p.2) == .ok (BitVec.ofNat 16 p.1) && t.i != (placed p.1 p.2).i) = true := by decide

theorem witness_StackPointerMovesOnlyByCallAndRet :
    ([(0x2FFF, withStack 15), (0x00EE, withStack 16)].all fun p => next (step (placed p.1 p.2)) fun t =>
      fetch (placed p.1 p.2) == .ok (BitVec.ofNat 16 p.1) && t.sp != (placed p.1 p.2).sp) = true := by decide

/-- At the last address where both bytes are in range. -/
theorem witness_FetchSeesTheStoreBefore :
    let s := withI 0xFFE (State.reset.setPC 0xFFE)
    MemoryCanonical s ∧ 1 ≤ (1 : Reg).val ∧ s.i = s.pc ∧ ∃ t, exec (.ldMemVx 1) s = .next t ∧ (t.pc == 0xFFE) = true :=
  ⟨by unfold MemoryCanonical; decide, by decide, by decide, next_exists (by decide)⟩

/-- No rows at any `I`; 15 rows up to 0xFFF; one row too many. -/
theorem witness_DrawXorsTheSprite :
    BlockPasses State.reset.params 0xFFFF (0x0#4).toNat ∧ BlockPasses State.reset.params 0xFF1 (0xF#4).toNat ∧
    State.reset.params.memAddr = .fault ∧ 1 ≤ (0xF#4).toNat ∧ (withI 0xFF2).i.toNat + (0xF#4).toNat - 1 > 0xFFF := by
  unfold BlockPasses; decide

/-- Both sides of the collision clauses, and a set bit: glyph 0 at the corner (63, 31). -/
theorem witness_DrawXorsTheSprite_pixels :
    let s := withI 0x050 (withRegs [(1, 63), (2, 31)])
    SpriteCovers s 1 2 5 63 31 ∧ s.fb[(31 : Fin 32)][(63 : Fin 64)] = false ∧
    (s.fb.flip (63, 31))[(31 : Fin 32)][(63 : Fin 64)] = true :=
  ⟨⟨0, 0, by decide, by decide, by decide, by decide, by decide⟩, by decide, by decide +kernel⟩

theorem witness_DrawingTwiceRestores :
    let s := withI 0x050 (withRegs [(1, 63), (2, 31)])
    (∃ t, exec (.drw 1 2 5) s = .next t ∧ (t.v[1] == s.v[1] && t.v[2] == s.v[2] &&
      next (exec (.drw 1 2 5) t) fun _ => true) = true) ∧
    (∀ (px : Fin 64) (py : Fin 32), s.fb[py][px] = false) ∧ ∃ px py, SpriteCovers s 1 2 5 px py :=
  ⟨next_exists (by decide +kernel),
    by intro px py; simp [withI, withRegs, State.setI, State.setV, State.reset, State.create],
    63, 31, 0, 0, by decide, by decide, by decide, by decide, by decide⟩

theorem witness_FramebufferWrittenOnlyByClsAndDrw :
    let s := placed 0xD125 (withI 0x050)
    HostMove.step ≠ .reset ∧ ((hostMove s .step).fb.get (0, 0) != s.fb.get (0, 0)) = true := by
  refine ⟨by decide, by decide +kernel⟩

/-- Key values 15 and 16 under both policies. -/
theorem witness_SkipOnKey :
    underMask4.params.keyIndex = .mask4 ∧ ((withRegs [(1, 15)]).v[(1 : Fin 16)]).toNat ≤ 15 ∧
    State.reset.params.keyIndex = .fault ∧ ((withRegs [(1, 16)]).v[(1 : Fin 16)]).toNat > 15 := by decide

/-- Key 15 alone, key 0 with another, and no key. -/
theorem witness_WaitForKeyTakesTheLowest :
    ((withKey 15).key[(15 : Fin 16)] = true ∧ ∀ j : Fin 16, j < 15 → (withKey 15).key[j] = false) ∧
    ((withKey 0 (withKey 7)).key[(0 : Fin 16)] = true ∧ ∀ j : Fin 16, j < 0 → (withKey 0 (withKey 7)).key[j] = false) ∧
    ∀ k : Fin 16, State.reset.key[k] = false := by decide

theorem witness_KeypadWrittenOnlyByTheHost :
    (hostMove State.reset (.keySet 15 true)).key ≠ State.reset.key := by decide

theorem witness_KeyWaitBlocksTheMachine : WaitsForKey (placed 0xFF0A) :=
  ⟨by decide, ⟨0xFF0A#16, 15, by decide, by decide⟩, by decide⟩

/-- A step of each kind: no report, and the three causes. -/
theorem witness_StepEmitsAtMostOneReport :
    ([(0x6000, State.reset), (0x9121, State.reset), (0x00EE, withStack 0), (0x2FFF, withStack 16)].all fun p =>
      next (step (placed p.1 p.2)) fun _ => fetch (placed p.1 p.2) == .ok (BitVec.ofNat 16 p.1)) = true := by decide

/-- One step for each fault. -/
theorem witness_FaultsHaveTheirNamedCauses :
    step (State.reset.setPC 0xFFF) = .fault (.fetchRange 0xFFF) ∧
    step (placed 0xD121 (withI 0x1000)) = .fault (.memRange 0xD121 0x200 0x1000) ∧
    step (placed 0xF033 (withI 0xFFE)) = .fault (.memRange 0xF033 0x200 0x1000) ∧
    step (placed 0xF055 (withI 0xFFFF)) = .fault (.memRange 0xF055 0x200 0xFFFF) ∧
    step (placed 0xE19E (withRegs [(1, 16)])) = .fault (.keyRange 0xE19E 0x200) ∧
    step (placed 0xF029 (withRegs [(0, 16)] underFontFault)) = .fault (.fontRange 0xF029 0x200) :=
  ⟨faults_eq (by decide), faults_eq (by decide), faults_eq (by decide), faults_eq (by decide), faults_eq (by decide),
    faults_eq (by decide)⟩

theorem witness_RefusalsAriseOnlyFromVfOperands :
    underRefuse.status = .running ∧ step (placed 0x81F7 underRefuse) = .refused (.vfOperand 0x81F7 0x200) ∧
    step (placed 0x8F0E underRefuse) = .refused (.vfOperand 0x8F0E 0x200) :=
  ⟨by decide, refuses_eq (by decide), refuses_eq (by decide)⟩

theorem witness_StoppingIsKeptUntilReset :
    (State.reset.setPC 0x1000).status = .running ∧ HostMove.reset ∉ [HostMove.step, .load [], .keySet 0 true] ∧
    step (State.reset.setPC 0x1000) = .fault (.fetchRange 0x1000) ∧
    step (placed 0x8F14 underRefuse) = .refused (.vfOperand 0x8F14 0x200) :=
  ⟨by decide, by decide, faults_eq (by decide), refuses_eq (by decide)⟩

/-- Total policies, both with the formula and with the mask for FX29, at a `PC` that another policy faults on. -/
theorem witness_TotalPoliciesNeverStop :
    let p : Params := { defaultParams with memAddr := .wrap12, keyIndex := .mask4 }
    ((State.create p).setPC 0xFFFF).status = .running ∧ TotalParams p ∧ TotalParams { p with fontIndex := .mask4 } := by
  unfold TotalParams; decide

theorem witness_ResetStateValues :
    (State.reset = State.reset ∨ State.reset = hostMove (placed 0x6A02) .reset) ∧
    hostMove (withRegs [(0, 1)]) .reset = State.reset := by decide +kernel

/-- A storing step. -/
theorem witness_EveryStepKeepsTheInvariant :
    MemoryCanonical (placed 0xFF55 (withI 0xFF0)) ∧
    ∃ t, step (placed 0xFF55 (withI 0xFF0)) = .next t ∧ (t.pc == 0x202) = true :=
  ⟨by unfold MemoryCanonical; decide, next_exists (by decide)⟩

theorem witness_HostMovesKeepTheInvariant : MemoryCanonical (placed 0x6A02) := by unfold MemoryCanonical; decide

/-- The ends of memory, distinct and equal. -/
theorem witness_StoredBytesAreReadBack :
    MemoryCanonical State.reset ∧ (0 : Nat) ≤ 0xFFF ∧ (0xFFF : Nat) ≤ 0xFFF ∧ (0 : Nat) ≠ 0xFFF ∧
    (0x200 : Nat) ≠ 0 ∧ (0x200 : Nat) ≠ 0xFFF := by unfold MemoryCanonical; decide

theorem witness_CanonicalMemoriesAreEqual :
    Memory.wf defaultFont [(0, 1), (0x050, 0), (0xFFF, 255)] = true ∧ Memory.wf defaultFont [] = true := by decide

/-- Programs of 3584 bytes and of one more. -/
theorem witness_LoadCopiesOrReports : MemoryCanonical State.reset ∧ (List.replicate 3584 0x55#8).length ≤ 3584 ∧
    (List.replicate 3585 0x55#8).length > 3584 := by
  rw [List.length_replicate, List.length_replicate]
  exact ⟨by unfold MemoryCanonical; decide, by decide, by decide⟩

theorem witness_ParkedMachineOnlyCountsDown : Parked (placed 0x1200) :=
  ⟨by decide, 0x1200#16, 0x200, by decide, by decide, by decide⟩

/-- A difference in a dead entry, in `ST` and in the reports; a completed step, a fault and a refusal. -/
theorem witness_HiddenStateIsNeverObserved :
    (∀ s : State, s.sp = 1 →
      Indistinguishable s { s with stack := s.stack.set 1 0xBAD, st := 7, reportOut := [.programTooLarge 9999] }) ∧
    (∃ t, step (placed 0x00EE (withStack 1)) = .next t ∧ (t.pc == 0x20A) = true) ∧
    step ((withStack 1).setPC 0xFFF) = .fault (.fetchRange 0xFFF) ∧
    step (placed 0x8F14 (withStack 1 underRefuse)) = .refused (.vfOperand 0x8F14 0x200) := by
  refine ⟨fun s hs => ⟨rfl, fun j hj => ?_⟩, next_exists (by decide), faults_eq (by decide), refuses_eq (by decide)⟩
  rw [hs] at hj
  simp only [Fin.getElem_fin, Vector.getElem_set]
  rw [if_neg (by simp at hj; omega)]

/-- From a stopped machine with `PC` out of range. -/
theorem witness_PlacedWordIsFetched :
    MemoryCanonical { State.reset.setPC 0xFFF with status := .faulted (.fetchRange 0xFFF) } := by
  unfold MemoryCanonical; decide

end Sys2Proof.Tests
end

section
/-! SUPPORT. The state's own rules (10_state.md): who moves `SP` (R29), and what the creation state holds (R40). -/

namespace Sys2Proof.Machine

/-! ### The stack pointer -/

theorem push_sp {s t : State} (h : s.push = some t) : t.sp.val = s.sp.val + 1 := by
  have hlt : s.sp.val < 16 := by
    have hne : s.sp.val ≠ 16 := fun h16 => by simp [push_eq_none.2 h16] at h
    omega
  rw [push_eq_some hlt] at h
  cases h
  rfl

theorem pop_sp {s t : State} (h : s.pop = some t) : t.sp.val + 1 = s.sp.val := by
  cases hk : s.sp.val with
  | zero => simp [pop_eq_none.2 hk] at h
  | succ k =>
    rw [pop_eq_some (by omega) hk] at h
    cases h
    rfl

/-- CALL moves `SP` up by one, or leaves it where it only reports (R103). -/
theorem execCall_sp {nnn : Imm12} {s t : State} (h : execCall nnn s = .next t) :
    t.sp = s.sp ∨ t.sp.val = s.sp.val + 1 := by
  unfold execCall at h
  split at h <;> cases h
  · rename_i u hpush
    have hup : u.sp.val = s.sp.val + 1 := push_sp hpush
    exact .inr hup
  · exact .inl rfl

/-- RET moves `SP` down by one, or leaves it where it only reports (R101). -/
theorem execRet_sp {ign : Byte} {s t : State} (h : execRet ign s = .next t) :
    t.sp = s.sp ∨ t.sp.val + 1 = s.sp.val := by
  unfold execRet at h
  split at h <;> cases h
  · rename_i hpop
    exact .inr (pop_sp hpop)
  · exact .inl rfl

/-- No meaning but those of CALL and RET writes `SP` (R29). -/
theorem exec_sp_of_ne_call_ret {i : Instr} {s t : State} (hcall : ∀ nnn, i ≠ .call nnn) (hret : ∀ ign, i ≠ .ret ign)
    (h : exec i s = .next t) : t.sp = s.sp := by
  cases i
  case call nnn => exact absurd rfl (hcall nnn)
  case ret ign => exact absurd rfl (hret ign)
  case seImm | sneImm | seReg | sneReg => cases h; exact State.skipIf_sp ..
  case skp | sknp =>
    simp only [exec, execSkp, execSknp] at h
    split at h <;> cases h
    exact State.skipIf_sp ..
  case ldFVx =>
    simp only [exec, execLdFVx] at h
    split at h <;> cases h
    rfl
  case ldVxK =>
    simp only [exec, execLdVxK] at h
    split at h <;> cases h <;> rfl
  case addReg | subReg | shr | subnReg | shl => obtain rfl := aluVF_next h; rfl
  case ldBVx | ldMemVx | ldVxMem | drw => obtain ⟨-, rfl⟩ := withBlock_next h; rfl
  all_goals cases h; rfl

/-- What a meaning can do to `SP`: leave it, or CALL moves it up by one, or RET down by one. -/
theorem exec_sp_cases {i : Instr} {s t : State} (h : exec i s = .next t) :
    t.sp = s.sp ∨ (∃ nnn, i = .call nnn ∧ t.sp.val = s.sp.val + 1) ∨
      (∃ ign, i = .ret ign ∧ t.sp.val + 1 = s.sp.val) := by
  by_cases hcall : ∃ nnn, i = .call nnn
  · obtain ⟨nnn, rfl⟩ := hcall
    exact (execCall_sp h).imp_right fun hup => .inl ⟨nnn, rfl, hup⟩
  by_cases hret : ∃ ign, i = .ret ign
  · obtain ⟨ign, rfl⟩ := hret
    exact (execRet_sp h).imp_right fun hdown => .inr ⟨ign, rfl, hdown⟩
  exact .inl (exec_sp_of_ne_call_ret (not_exists.1 hcall) (not_exists.1 hret) h)

/-- Settles O33: the advance, the report of an UNKNOWN word and the tick leave `SP` alone, so a change is the meaning's. -/
theorem stackPointerMovesOnlyByCallAndRet : Obligations.StackPointerMovesOnlyByCallAndRet := by
  unfold Obligations.StackPointerMovesOnlyByCallAndRet
  intro s t w _ hf hstep hne
  obtain ⟨-, w', hf', hcases⟩ := step_next_cases hstep
  obtain rfl : w = w' := Except.ok.inj (hf.symm.trans hf')
  obtain ⟨r, -, rfl⟩ | ⟨i, u, hd, hu, rfl⟩ := hcases
  · exact absurd rfl hne
  · obtain hsame | ⟨nnn, rfl, hup⟩ | ⟨ign, rfl, hdown⟩ := exec_sp_cases hu
    · exact absurd hsame hne
    · exact .inl ⟨nnn, hd, hup⟩
    · exact .inr ⟨ign, hd, hdown⟩

/-! ### The creation state -/

/-- A reset glyph cell holds its byte of `FONT` (R40, R41). -/
theorem Memory.unlisted_font (font : Font) (j : Fin 80) : Memory.unlisted font (0x050 + j.val) = font[j] := by
  unfold Memory.unlisted
  rw [dif_pos (by omega)]
  simp

/-- Every other reset cell holds 0 (R40). -/
theorem Memory.unlisted_outside_font (font : Font) {a : Nat} (h : a < 0x050 ∨ 0x09F < a) :
    Memory.unlisted font a = 0 := by
  unfold Memory.unlisted
  rw [dif_neg (by omega)]

/-- Creation and the reset port agree but for the draw count, which R40 does not name. -/
theorem eq_create_of_reset {s t : State} (h : t = State.reset ∨ t = hostMove s .reset) :
    ∃ p n, t = { State.create p with draws := n } := by
  obtain rfl | rfl := h
  · exact ⟨defaultParams, 0, rfl⟩
  · exact ⟨s.params, s.draws, rfl⟩

theorem create_v (p : Params) (r : Reg) : (State.create p).v[r] = 0 := by simp [State.create]

theorem create_stack (p : Params) (j : Fin 16) : (State.create p).stack[j] = 0 := by simp [State.create]

theorem create_fb (p : Params) (px : Fin 64) (py : Fin 32) : (State.create p).fb[py][px] = false := by
  simp [State.create]

theorem create_key (p : Params) (k : Fin 16) : (State.create p).key[k] = false := by simp [State.create]

/-- Settles O49: both states are a creation state up to the draw count, whose memory lists no cell. -/
theorem resetStateValues : Obligations.ResetStateValues := by
  unfold Obligations.ResetStateValues
  intro s t h
  obtain ⟨p, n, rfl⟩ := eq_create_of_reset h
  exact ⟨create_v p, rfl, rfl, rfl, create_stack p, rfl, rfl, create_fb p, create_key p, rfl,
    Memory.unlisted_font p.font, fun a => Memory.unlisted_outside_font p.font⟩

end Sys2Proof.Machine
end

section
/-! SUPPORT. The cycle's two ends (40_cycle.md): what a meaning leaves for the tick (R94, R187), and how a stopping step is
kept until reset (R95, R96, R204, R206, R231). -/

namespace Sys2Proof.Machine

/-! ### The timers -/

/-- A push writes nothing but the stack and `SP` (R103). -/
theorem push_frame {s t : State} (h : s.push = some t) : t = { s with stack := t.stack, sp := t.sp } := by
  unfold State.push at h
  split at h <;> cases h
  rfl

/-- A pop writes nothing but `SP` and `PC` (R101). -/
theorem pop_frame {s t : State} (h : s.pop = some t) : t = { s with sp := t.sp, pc := t.pc } := by
  unfold State.pop at h
  split at h <;> cases h
  rfl

theorem execCall_timers {nnn : Imm12} {s t : State} (h : execCall nnn s = .next t) : t.dt = s.dt ∧ t.st = s.st := by
  unfold execCall at h
  split at h <;> cases h
  · rename_i u hpush
    rw [push_frame hpush]
    exact ⟨rfl, rfl⟩
  · exact ⟨rfl, rfl⟩

theorem execRet_timers {ign : Byte} {s t : State} (h : execRet ign s = .next t) : t.dt = s.dt ∧ t.st = s.st := by
  unfold execRet at h
  split at h <;> cases h
  · rename_i hpop
    rw [pop_frame hpop]
    exact ⟨rfl, rfl⟩
  · exact ⟨rfl, rfl⟩

/-- No meaning but those of FX15 and FX18 writes a timer (R185, R186). -/
theorem exec_timers_of_ne_ldDTVx_ldSTVx {i : Instr} {s t : State} (hdt : ∀ x, i ≠ .ldDTVx x) (hst : ∀ x, i ≠ .ldSTVx x)
    (h : exec i s = .next t) : t.dt = s.dt ∧ t.st = s.st := by
  cases i
  case ldDTVx x => exact absurd rfl (hdt x)
  case ldSTVx x => exact absurd rfl (hst x)
  case call => exact execCall_timers h
  case ret => exact execRet_timers h
  case seImm | sneImm | seReg | sneReg => cases h; exact ⟨State.skipIf_dt .., State.skipIf_st ..⟩
  case skp | sknp =>
    simp only [exec, execSkp, execSknp] at h
    split at h <;> cases h
    exact ⟨State.skipIf_dt .., State.skipIf_st ..⟩
  case ldFVx =>
    simp only [exec, execLdFVx] at h
    split at h <;> cases h
    exact ⟨rfl, rfl⟩
  case ldVxK =>
    simp only [exec, execLdVxK] at h
    split at h <;> cases h <;> exact ⟨rfl, rfl⟩
  case addReg | subReg | shr | subnReg | shl => obtain rfl := aluVF_next h; exact ⟨rfl, rfl⟩
  case ldBVx | ldMemVx | ldVxMem | drw => obtain ⟨-, rfl⟩ := withBlock_next h; exact ⟨rfl, rfl⟩
  all_goals cases h; exact ⟨rfl, rfl⟩

/-- What a meaning can do to the timers: FX15 loads `DT`, FX18 loads `ST`, and any other leaves both. -/
theorem exec_timers_cases {i : Instr} {s t : State} (h : exec i s = .next t) :
    (∃ x, i = .ldDTVx x ∧ t.dt = s.v[x] ∧ t.st = s.st) ∨ (∃ x, i = .ldSTVx x ∧ t.dt = s.dt ∧ t.st = s.v[x]) ∨
      ((∀ x, i ≠ .ldDTVx x) ∧ (∀ x, i ≠ .ldSTVx x) ∧ t.dt = s.dt ∧ t.st = s.st) := by
  by_cases hdt : ∃ x, i = .ldDTVx x
  · obtain ⟨x, rfl⟩ := hdt
    cases h
    exact .inl ⟨x, rfl, rfl, rfl⟩
  by_cases hst : ∃ x, i = .ldSTVx x
  · obtain ⟨x, rfl⟩ := hst
    cases h
    exact .inr (.inl ⟨x, rfl, rfl, rfl⟩)
  have hdt := not_exists.1 hdt
  have hst := not_exists.1 hst
  exact .inr (.inr ⟨hdt, hst, exec_timers_of_ne_ldDTVx_ldSTVx hdt hst h⟩)

/-- Settles O12: the tick decrements what the meaning left, which is the old value but for the timer FX15 or FX18 loads; an
UNKNOWN word leaves both. -/
theorem timersTickOnceEveryCompletedStep : Obligations.TimersTickOnceEveryCompletedStep := by
  unfold Obligations.TimersTickOnceEveryCompletedStep
  intro s t w _ hf hstep
  obtain ⟨-, w', hf', hcases⟩ := step_next_cases hstep
  obtain rfl : w = w' := Except.ok.inj (hf.symm.trans hf')
  obtain ⟨r, hd, rfl⟩ | ⟨i, u, hd, hu, rfl⟩ := hcases
  · simp [hd, toNat_decTimer]
  · obtain ⟨x, rfl, hdt, hst⟩ | ⟨x, rfl, hdt, hst⟩ | ⟨hne, hne', hdt, hst⟩ := exec_timers_cases hu
    · simp [hd, hdt, hst, toNat_decTimer]
    · simp [hd, hdt, hst, toNat_decTimer]
    · simp [hd, hdt, hst, hne, hne', toNat_decTimer]

/-! ### Stopping -/

theorem step_faulted {s : State} {f : Fault} (h : s.status = .faulted f) : step s = .fault f := by
  unfold step
  rw [h]

theorem step_refused {s : State} {r : Refusal} (h : s.status = .refused r) : step s = .refused r := by
  unfold step
  rw [h]

/-- A faulting step changes only `STATUS` (R95, R204). -/
theorem afterStep_fault {s : State} {f : Fault} (h : step s = .fault f) :
    s.afterStep = { s with status := .faulted f } := by
  unfold State.afterStep
  rw [h]

/-- A refusing step changes only `STATUS` (R95, R206). -/
theorem afterStep_refused {s : State} {r : Refusal} (h : step s = .refused r) :
    s.afterStep = { s with status := .refused r } := by
  unfold State.afterStep
  rw [h]

/-- A stopped machine stays as it is (R96). -/
theorem afterStep_stopped {s : State} (h : Stopped s) : s.afterStep = s := by
  cases hs : s.status with
  | running => exact absurd hs h
  | faulted f => rw [afterStep_fault (step_faulted hs), ← hs]
  | refused r => rw [afterStep_refused (step_refused hs), ← hs]

/-- A load, done or reported as too large, leaves `STATUS` alone (R234 to R236). -/
@[simp] theorem State.load_status (s : State) (bytes : List Byte) : (s.load bytes).status = s.status := by
  unfold State.load
  split <;> rfl

/-- No host move but reset changes the status of a stopped machine. -/
theorem hostMove_status_of_stopped {s : State} {m : HostMove} (h : Stopped s) (hm : m ≠ .reset) :
    (hostMove s m).status = s.status := by
  cases m with
  | step => exact congrArg State.status (afterStep_stopped h)
  | load bytes => exact State.load_status s bytes
  | keySet k b => rfl
  | reset => exact absurd rfl hm

/-- A stopped machine keeps its status through any host moves without reset. -/
theorem hostMoves_status_of_stopped {ms : List HostMove} (hms : .reset ∉ ms) {s : State} (h : Stopped s) :
    (hostMoves s ms).status = s.status := by
  induction ms generalizing s with
  | nil => rfl
  | cons m ms ih =>
    obtain ⟨hne, hms⟩ := not_or.1 (List.mem_cons.not.1 hms)
    have hm : (hostMove s m).status = s.status := hostMove_status_of_stopped h (Ne.symm hne)
    have hstopped : Stopped (hostMove s m) := fun hrun => h (hm.symm.trans hrun)
    exact (ih hms hstopped).trans hm

/-- A status that a stopping step sets stays through any host moves without reset. -/
theorem hostMoves_status_of_afterStep {s : State} {ms : List HostMove} {st : Status} (hms : .reset ∉ ms)
    (hst : st ≠ .running) (hafter : s.afterStep = { s with status := st }) :
    (hostMoves s.afterStep ms).status = st := by
  have hstatus : s.afterStep.status = st := congrArg State.status hafter
  have hstopped : Stopped s.afterStep := fun hrun => hst (hstatus.symm.trans hrun)
  exact (hostMoves_status_of_stopped hms hstopped).trans hstatus

/-- Settles O47: the state after a stopping step is a stopped one, whose status host moves without reset keep. -/
theorem stoppingIsKeptUntilReset : Obligations.StoppingIsKeptUntilReset := by
  unfold Obligations.StoppingIsKeptUntilReset
  intro s ms _ hms
  refine ⟨fun f hf => ?_, fun r hr => ?_, rfl⟩
  · have hafter := afterStep_fault hf
    have hkept := hostMoves_status_of_afterStep hms Status.noConfusion hafter
    exact ⟨hafter, hkept, step_faulted hkept⟩
  · have hafter := afterStep_refused hr
    have hkept := hostMoves_status_of_afterStep hms Status.noConfusion hafter
    exact ⟨hafter, hkept, step_refused hkept⟩

end Sys2Proof.Machine
end

section
/-! SUPPORT. Control transfer (41_flow.md): the skips on registers and immediates (R104, R107), the jumps (R102, R108) and
RET (R101). -/

namespace Sys2Proof.Machine

/-! ### Decoding -/

section
variable (x y : Reg) (n : Nibble) (nn ign : Byte) (nnn : Imm12)

theorem decodeWord_seImm : decodeWord (0x3#4 ++ Reg.nibble x ++ nn) = .ok (.seImm x nn) := by
  simp [decodeWord, primary_formatXNN, regX_formatXNN, immNN_formatXNN]

/-- The sub-selector of primary 0x9 (R77). -/
theorem decodeSub9_eq_ite (w : Word) :
    decodeSub9 w = if immN w = 0 then .ok (.sneReg (regX w) (regY w)) else .error (.unknown w) := by
  unfold decodeSub9
  split
  · next h => exact (if_pos h).symm
  · next h => exact (if_neg h).symm

/-- Primary 0x9 runs only with the low nibble 0 (R77). -/
theorem decodeWord_primary9 :
    decodeWord (0x9#4 ++ Reg.nibble x ++ Reg.nibble y ++ n) =
      if n = 0 then .ok (.sneReg x y) else .error (.unknown (0x9#4 ++ Reg.nibble x ++ Reg.nibble y ++ n)) := by
  simp [decodeWord, primary_formatXYN, decodeSub9_eq_ite, immN_formatXYN, regX_formatXYN, regY_formatXYN]

theorem decodeWord_jp : decodeWord (0x1#4 ++ nnn) = .ok (.jp nnn) := by
  simp [decodeWord, primary_formatA, immNNN_formatA]

theorem decodeWord_jpV0 : decodeWord (0xB#4 ++ nnn) = .ok (.jpV0 nnn) := by
  simp [decodeWord, primary_formatA, immNNN_formatA]

theorem decodeWord_ret : decodeWord (0x0#4 ++ ign ++ 0xE#4) = .ok (.ret ign) := by
  simp [decodeWord, decodeSub0, primary_formatS0, immN_formatS0, ignoredS0_formatS0]

end

/-! ### The skips -/

/-- SE skips on equality (R104). -/
theorem exec_seImm (x : Reg) (nn : Byte) (s : State) :
    exec (.seImm x nn) s = .next { s with pc := if s.v[x] = nn then s.pc + 2 else s.pc } := by
  rw [exec, execSeImm, State.skipIf_eq]
  simp only [beq_iff_eq]

/-- SNE skips on inequality (R107). -/
theorem exec_sneReg (x y : Reg) (s : State) :
    exec (.sneReg x y) s = .next { s with pc := if s.v[x] = s.v[y] then s.pc else s.pc + 2 } := by
  rw [exec, execSneReg, State.skipIf_eq]
  simp only [bne_iff_ne, ite_not]

/-- Settles O14: each skip is a `skipIf`, which changes only `PC`. -/
theorem skipOnEqualImmediateOrUnequalRegisters : Obligations.SkipOnEqualImmediateOrUnequalRegisters := by
  unfold Obligations.SkipOnEqualImmediateOrUnequalRegisters
  intro x y nn n s
  exact ⟨decodeWord_seImm x nn, decodeWord_primary9 x y n, exec_seImm x nn s, exec_sneReg x y s⟩

/-! ### The jumps -/

theorem toNat_zext12 (nnn : Imm12) : (zext12 nnn).toNat = nnn.toNat :=
  BitVec.toNat_setWidth_of_le (by decide)

theorem toNat_zext8 (b : Byte) : (zext8 b).toNat = b.toNat :=
  BitVec.toNat_setWidth_of_le (by decide)

/-- The sum of BNNN is at most 0x10FE (R108). -/
theorem toNat_zext12_add_zext8 (nnn : Imm12) (b : Byte) : (zext12 nnn + zext8 b).toNat = nnn.toNat + b.toNat := by
  have hnnn : nnn.toNat < 0x1000 := nnn.isLt
  have hb : b.toNat < 0x100 := b.isLt
  rw [BitVec.toNat_add, toNat_zext12, toNat_zext8, Nat.mod_eq_of_lt (by omega)]

/-- Settles O16: each jump is a `setPC`, to a target that does not wrap. -/
theorem jumpsSetOnlyPC : Obligations.JumpsSetOnlyPC := by
  unfold Obligations.JumpsSetOnlyPC
  intro nnn s
  exact ⟨decodeWord_jp nnn, decodeWord_jpV0 nnn, ⟨_, rfl, rfl, toNat_zext12 nnn⟩,
    ⟨_, rfl, rfl, toNat_zext12_add_zext8 nnn s.v[Reg.v0]⟩⟩

/-! ### RET -/

/-- RET with a live entry answers the pop (R101). -/
theorem exec_ret_of_pop {ign : Byte} {s t : State} (h : s.pop = some t) : exec (.ret ign) s = .next t := by
  rw [exec, execRet, h]

/-- RET with no live entry only reports (R101). -/
theorem exec_ret_of_pop_none {ign : Byte} {s : State} (h : s.pop = none) :
    exec (.ret ign) s = .next (s.report (.stackUnderflow (encode (.ret ign)) s.fetchAddr)) := by
  rw [exec, execRet, h]

/-- Settles O18: RET answers the pop, which succeeds exactly with a live entry, or else a report. -/
theorem retPopsOrReports : Obligations.RetPopsOrReports := by
  unfold Obligations.RetPopsOrReports
  intro ign s
  refine ⟨decodeWord_ret ign, fun j hj => ?_, fun h0 => ?_⟩
  · exact ⟨_, exec_ret_of_pop (pop_eq_some j.isLt hj), rfl, rfl, rfl⟩
  · exact exec_ret_of_pop_none (pop_eq_none.2 h0)

end Sys2Proof.Machine
end

section
/-! SUPPORT. The 8-bit ALU (42_alu.md): load and copy (R123, R125), and the five operations that write a flag (R122, R129 to
R133). -/

namespace Sys2Proof.Machine

/-! ### Decoding -/

section
variable (x y : Reg) (n : Nibble) (nn : Byte)

theorem decodeWord_ldImm : decodeWord (0x6#4 ++ Reg.nibble x ++ nn) = .ok (.ldImm x nn) := by
  simp [decodeWord, primary_formatXNN, regX_formatXNN, immNN_formatXNN]

/-- Primary 0x8 leaves the word to the sub-table (R76). -/
theorem decodeWord_primary8 :
    decodeWord (0x8#4 ++ Reg.nibble x ++ Reg.nibble y ++ n) = decodeSub8 (0x8#4 ++ Reg.nibble x ++ Reg.nibble y ++ n) := by
  simp [decodeWord, primary_formatXYN]

theorem decodeWord_ldReg : decodeWord (0x8#4 ++ Reg.nibble x ++ Reg.nibble y ++ 0x0#4) = .ok (.ldReg x y) := by
  simp [decodeWord_primary8, decodeSub8, immN_formatXYN, regX_formatXYN, regY_formatXYN]

theorem decodeWord_addReg : decodeWord (0x8#4 ++ Reg.nibble x ++ Reg.nibble y ++ 0x4#4) = .ok (.addReg x y) := by
  simp [decodeWord_primary8, decodeSub8, immN_formatXYN, regX_formatXYN, regY_formatXYN]

theorem decodeWord_subReg : decodeWord (0x8#4 ++ Reg.nibble x ++ Reg.nibble y ++ 0x5#4) = .ok (.subReg x y) := by
  simp [decodeWord_primary8, decodeSub8, immN_formatXYN, regX_formatXYN, regY_formatXYN]

theorem decodeWord_shr : decodeWord (0x8#4 ++ Reg.nibble x ++ Reg.nibble y ++ 0x6#4) = .ok (.shr x y) := by
  simp [decodeWord_primary8, decodeSub8, immN_formatXYN, regX_formatXYN, regY_formatXYN]

theorem decodeWord_subnReg : decodeWord (0x8#4 ++ Reg.nibble x ++ Reg.nibble y ++ 0x7#4) = .ok (.subnReg x y) := by
  simp [decodeWord_primary8, decodeSub8, immN_formatXYN, regX_formatXYN, regY_formatXYN]

theorem decodeWord_shl : decodeWord (0x8#4 ++ Reg.nibble x ++ Reg.nibble y ++ 0xE#4) = .ok (.shl x y) := by
  simp [decodeWord_primary8, decodeSub8, immN_formatXYN, regX_formatXYN, regY_formatXYN]

end

/-! ### Load and copy -/

/-- Settles O20: each load is one `setV`. -/
theorem loadImmediateAndCopy : Obligations.LoadImmediateAndCopy := by
  unfold Obligations.LoadImmediateAndCopy
  intro x y nn s
  exact ⟨decodeWord_ldImm x nn, decodeWord_ldReg x y, ⟨_, rfl, setV_onlyRegWritten s x nn⟩,
    ⟨_, rfl, setV_onlyRegWritten s x s.v[y]⟩⟩

/-! ### Forms that name VF (R122) -/

theorem namesVF_of_readsY {x y : Reg} : namesVF x y true = true ↔ x = Reg.vF ∨ y = Reg.vF := by
  simp [namesVF]

theorem not_namesVF_of_readsY {x y : Reg} : namesVF x y true = false ↔ x ≠ Reg.vF ∧ y ≠ Reg.vF := by
  simp [namesVF]

/-- A form that does not read `Y` names VF only as `X`. -/
theorem namesVF_of_ignoresY {x y : Reg} : namesVF x y false = true ↔ x = Reg.vF := by
  simp [namesVF]

theorem not_namesVF_of_ignoresY {x y : Reg} : namesVF x y false = false ↔ x ≠ Reg.vF := by
  simp [namesVF]

/-! ### Results and flags as numbers (R121) -/

section
variable (a b : Byte)

theorem toNat_sub_byte : (a - b).toNat = (a.toNat + 256 - b.toNat) % 256 := by
  have hb : b.toNat < 256 := b.isLt
  rw [BitVec.toNat_sub]
  omega

theorem toNat_shr_byte : (a >>> 1).toNat = a.toNat / 2 := by
  rw [BitVec.toNat_ushiftRight, Nat.shiftRight_one]

theorem toNat_shl_byte : (a <<< 1).toNat = a.toNat * 2 % 256 := by
  rw [BitVec.toNat_shiftLeft, Nat.shiftLeft_eq]

theorem carryFlag_iff : carryFlag a b = true ↔ a.toNat + b.toNat > 255 := decide_eq_true_iff

theorem gtFlag_iff : gtFlag a b = true ↔ a.toNat > b.toNat := decide_eq_true_iff

theorem lsbFlag_iff : lsbFlag a = true ↔ a.toNat % 2 = 1 := by
  rw [lsbFlag, BitVec.getLsbD, Nat.testBit_zero, decide_eq_true_iff]

theorem msbFlag_iff : msbFlag a = true ↔ a.toNat ≥ 128 := by
  have hmsb : msbFlag a = a.msb := (BitVec.msb_eq_getLsbD_last a).symm
  rw [hmsb, BitVec.msb_eq_decide, decide_eq_true_iff]

end

/-! ### What `alu_vf` does (R122) -/

/-- `aluVF` completes where the policy or the operands allow it, with the operation's result and flag. -/
theorem aluVF_writes {instr : Instr} {x y : Reg} {readsY : Bool} {op : AluOp} {s : State} {n : Nat} {F : Prop}
    (h : s.params.vfDest = .flagLast ∨ namesVF x y readsY = false) (hn : (op s.v[x] s.v[y]).1.toNat = n)
    (hf : (op s.v[x] s.v[y]).2 = true ↔ F) :
    ∃ t, aluVF instr x y readsY op s = .next t ∧ ResultAndFlagWritten s t x n F :=
  ⟨_, aluVF_ok h, resultAndFlagWritten hn hf⟩

/-- Settles O22: ADD is `aluVF` of the sum and the carry, and names VF as `X` or as `Y`. -/
theorem addSetsCarry : Obligations.AddSetsCarry := by
  unfold Obligations.AddSetsCarry
  intro x y s word
  refine ⟨decodeWord_addReg x y, fun hok => ?_, fun hrefuse hvF => ?_⟩
  · exact aluVF_writes (hok.imp_right not_namesVF_of_readsY.2) (BitVec.toNat_add ..) (carryFlag_iff ..)
  · exact aluVF_refused hrefuse (namesVF_of_readsY.2 hvF)

/-- Settles O23: SUB and SUBN are `aluVF` of the two differences and strict comparisons, and name VF as `X` or as `Y`. -/
theorem subtractSetsStrictGreater : Obligations.SubtractSetsStrictGreater := by
  unfold Obligations.SubtractSetsStrictGreater
  intro x y s sub subn
  refine ⟨decodeWord_subReg x y, decodeWord_subnReg x y, fun hok => ?_, fun hrefuse hvF => ?_⟩
  · have hok := hok.imp_right not_namesVF_of_readsY.2
    exact ⟨aluVF_writes hok (toNat_sub_byte ..) (gtFlag_iff ..), aluVF_writes hok (toNat_sub_byte ..) (gtFlag_iff ..)⟩
  · have hvF := namesVF_of_readsY.2 hvF
    exact ⟨aluVF_refused hrefuse hvF, aluVF_refused hrefuse hvF⟩

/-- Settles O24: the shifts are `aluVF` of half and of twice `V[X]` and the bit shifted out, and name VF only as `X`. -/
theorem shiftsSetTheBitShiftedOut : Obligations.ShiftsSetTheBitShiftedOut := by
  unfold Obligations.ShiftsSetTheBitShiftedOut
  intro x y s shr shl
  refine ⟨decodeWord_shr x y, decodeWord_shl x y, fun hok => ?_, fun hrefuse hvF => ?_⟩
  · have hok := hok.imp_right (not_namesVF_of_ignoresY (y := y)).2
    exact ⟨aluVF_writes hok (toNat_shr_byte _) (lsbFlag_iff _), aluVF_writes hok (toNat_shl_byte _) (msbFlag_iff _)⟩
  · have hvF := (namesVF_of_ignoresY (y := y)).2 hvF
    exact ⟨aluVF_refused hrefuse hvF, aluVF_refused hrefuse hvF⟩

end Sys2Proof.Machine
end

section
/-! SUPPORT. The index register and the memory blocks (43_index_memory.md): the glyph address (R153), and the block stores
and the block load (R154 to R156). -/

namespace Sys2Proof.Machine

/-! ### Decoding -/

section
variable (x : Reg) (nn : Byte)

/-- Primary 0xF leaves the word to the sub-table (R79). -/
theorem decodeWord_primaryF :
    decodeWord (0xF#4 ++ Reg.nibble x ++ nn) = decodeSubF (0xF#4 ++ Reg.nibble x ++ nn) := by
  simp [decodeWord, primary_formatXNN]

theorem decodeWord_ldFVx : decodeWord (0xF#4 ++ Reg.nibble x ++ 0x29#8) = .ok (.ldFVx x) := by
  simp [decodeWord_primaryF, decodeSubF, immNN_formatXNN, regX_formatXNN]

theorem decodeWord_ldBVx : decodeWord (0xF#4 ++ Reg.nibble x ++ 0x33#8) = .ok (.ldBVx x) := by
  simp [decodeWord_primaryF, decodeSubF, immNN_formatXNN, regX_formatXNN]

theorem decodeWord_ldMemVx : decodeWord (0xF#4 ++ Reg.nibble x ++ 0x55#8) = .ok (.ldMemVx x) := by
  simp [decodeWord_primaryF, decodeSubF, immNN_formatXNN, regX_formatXNN]

theorem decodeWord_ldVxMem : decodeWord (0xF#4 ++ Reg.nibble x ++ 0x65#8) = .ok (.ldVxMem x) := by
  simp [decodeWord_primaryF, decodeSubF, immNN_formatXNN, regX_formatXNN]

end

/-! ### The glyph address (R153) -/

/-- The glyph number is the digit itself under the formula, and under any policy for a digit up to 15. -/
theorem glyphIndex_ok {p : FontIndexPolicy} {b : Byte} (h : p = .formula ∨ b.toNat ≤ 15) :
    glyphIndex p b = some b.toNat := by
  obtain rfl | hle := h
  · rfl
  · cases p with
    | formula => rfl
    | mask4 => exact congrArg some (Nat.mod_eq_of_lt (Nat.lt_succ_of_le hle))
    | fault => exact if_pos hle

theorem glyphIndex_fault {b : Byte} (h : b.toNat > 15) : glyphIndex .fault b = none :=
  if_neg (Nat.not_le_of_gt h)

/-- The address of a glyph numbered by a byte does not wrap. -/
theorem toNat_glyphAddr {d : Nat} (h : d < 256) : (glyphAddr d).toNat = 0x050 + 5 * d :=
  Nat.mod_eq_of_lt (by omega)

/-- With a glyph number, FX29 only points `I` at the glyph. -/
theorem exec_ldFVx_of_glyphIndex {x : Reg} {s : State} {d : Nat} (hd : d < 256)
    (h : glyphIndex s.params.fontIndex s.v[x] = some d) :
    ∃ t, exec (.ldFVx x) s = .next t ∧ t = { s with i := t.i } ∧ t.i.toNat = 0x050 + 5 * d := by
  refine ⟨s.setI (glyphAddr d), ?_, rfl, toNat_glyphAddr hd⟩
  rw [exec, execLdFVx, h]

/-- Without one, FX29 faults. -/
theorem exec_ldFVx_of_glyphIndex_none {x : Reg} {s : State} (h : glyphIndex s.params.fontIndex s.v[x] = none) :
    exec (.ldFVx x) s = .fault (.fontRange (encode (.ldFVx x)) s.fetchAddr) := by
  rw [exec, execLdFVx, h]
  rfl

/-- Settles O28: each policy decides the glyph number, or that there is none, and the meaning follows it. -/
theorem fontIndexUnderEachPolicy : Obligations.FontIndexUnderEachPolicy := by
  unfold Obligations.FontIndexUnderEachPolicy
  intro x s word d
  have hd : d < 256 := (s.v[x]).isLt
  refine ⟨decodeWord_ldFVx x, fun h => ?_, fun hp => ?_, fun hp h => ?_⟩
  · exact exec_ldFVx_of_glyphIndex hd (glyphIndex_ok h)
  · have hmask : glyphIndex s.params.fontIndex s.v[x] = some (d % 16) := by rw [hp]; rfl
    exact exec_ldFVx_of_glyphIndex (Nat.lt_of_le_of_lt (Nat.mod_le d 16) hd) hmask
  · exact exec_ldFVx_of_glyphIndex_none (by rw [hp]; exact glyphIndex_fault h)

/-! ### The stores (R150, R154, R155) -/

/-- Storing `n` bytes over a passing block: each is read back from its address, every other cell reads as before, and
nothing else changes. -/
theorem withBlock_writeMem {instr : Instr} {s : State} {n : Nat} {bs : List Byte} (hm : MemoryCanonical s)
    (hn : n ≤ 0x1000) (hbs : bs.length = n) (h : BlockPasses s.params s.i.toNat n) :
    ∃ t, withBlock instr s n (fun ps => s.writeMem ps bs) = .next t ∧ t = { s with mem := t.mem } ∧
      (∀ k (hk : k < n), t.readMem (physAddr s.i.toNat k) = bs[k]'(hbs ▸ hk)) ∧
      ∀ a, (∀ k, k < n → a ≠ physAddr s.i.toNat k) → t.readMem a = s.readMem a := by
  refine ⟨_, withBlock_ok h, rfl, fun k hk => ?_, fun a ha => ?_⟩
  · exact readMem_writeMem_block hm hn hk (hbs ▸ hk)
  · refine readMem_writeMem_other (physAddrs_le _ n) hm fun hmem => ?_
    obtain ⟨k, hk, hak⟩ := mem_physAddrs.1 hmem
    exact ha k hk hak.symm

/-- A number that fits in a byte is that byte's value. -/
theorem toNat_ofNat_byte {n : Nat} (h : n < 256) : (BitVec.ofNat 8 n).toNat = n := Nat.mod_eq_of_lt h

theorem bcdDigits_length (b : Byte) : (bcdDigits b).length = 3 := rfl

/-- Settles O29: FX33 stores the list of the three digits, each of which fits in a byte. -/
theorem decimalDigitsAreStored : Obligations.DecimalDigitsAreStored := by
  unfold Obligations.DecimalDigitsAreStored
  intro x s hm word d I
  have hd : d < 256 := (s.v[x]).isLt
  refine ⟨decodeWord_ldBVx x, fun hpass => ?_, fun hp hI => ?_⟩
  · obtain ⟨t, ht, hframe, hcells, hother⟩ :=
      withBlock_writeMem (instr := .ldBVx x) hm (by decide) (bcdDigits_length s.v[x]) hpass
    refine ⟨t, ht, hframe, ?_, ?_, ?_, hother⟩
    · exact (congrArg BitVec.toNat (hcells 0 (by decide))).trans (toNat_ofNat_byte (by omega))
    · exact (congrArg BitVec.toNat (hcells 1 (by decide))).trans (toNat_ofNat_byte (by omega))
    · exact (congrArg BitVec.toNat (hcells 2 (by decide))).trans (toNat_ofNat_byte (by omega))
  · exact withBlock_error hp (by decide) hI

/-- Settles O30: FX55 stores the list `V[0], …, V[X]`. -/
theorem registersAreStored : Obligations.RegistersAreStored := by
  unfold Obligations.RegistersAreStored
  intro x s hm word I
  refine ⟨decodeWord_ldMemVx x, fun hpass => ?_, fun hp hI => ?_⟩
  · obtain ⟨t, ht, hframe, hcells, hother⟩ :=
      withBlock_writeMem (instr := .ldMemVx x) hm (by omega) (regsUpTo_length s.v x) hpass
    refine ⟨t, ht, hframe, fun r hr => ?_, fun a ha => hother a fun k hk => ?_⟩
    · exact (hcells r.val (Nat.lt_succ_of_le hr)).trans (regsUpTo_get s.v x _ r.isLt)
    · exact ha ⟨k, by omega⟩ (Nat.le_of_lt_succ hk)
  · exact withBlock_error hp (Nat.le_add_left 1 x.val) hI

/-! ### The load (R156) -/

/-- A block of `n` bytes loaded from V0 on: the registers below `n` take their bytes, the others stay. -/
theorem setRegsFrom_block_get (v : Vector Byte 16) (base n : Nat) (cell : Nat → Byte) (r : Reg) :
    (setRegsFrom v 0 (((List.range' 0 n).map (physAddr base)).map cell))[r] =
      if r.val < n then cell (physAddr base r.val) else v[r] := by
  rw [Fin.getElem_fin, setRegsFrom_get r.isLt]
  simp

/-- Settles O31: FX65 loads a block of `X + 1` bytes from V0 on, and `r ≤ X` says that `r` is below `X + 1`. -/
theorem registersAreLoaded : Obligations.RegistersAreLoaded := by
  unfold Obligations.RegistersAreLoaded
  intro x s word I
  refine ⟨decodeWord_ldVxMem x, fun hpass => ⟨_, withBlock_ok hpass, rfl, fun r hr => ?_, fun r hr => ?_⟩,
    fun hp hI => ?_⟩
  · have hin : r.val < x.val + 1 := Nat.lt_succ_of_le hr
    exact (setRegsFrom_block_get ..).trans (if_pos hin)
  · have hout : ¬ r.val < x.val + 1 := fun h => hr (Nat.le_of_lt_succ h)
    exact (setRegsFrom_block_get ..).trans (if_neg hout)
  · exact withBlock_error hp (Nat.le_add_left 1 x.val) hI

end Sys2Proof.Machine
end

section
/-! SUPPORT. The framebuffer (44_display.md): DRW's pixels, and what the draw loop over them does (R172). -/

namespace Sys2Proof.Machine

theorem decodeWord_drw (x y : Reg) (n : Nibble) :
    decodeWord (0xD#4 ++ Reg.nibble x ++ Reg.nibble y ++ n) = .ok (.drw x y n) := by
  simp [decodeWord, primary_formatXYN, regX_formatXYN, regY_formatXYN, immN_formatXYN]

/-! ### The pixels of a draw -/

/-- The pixels DRW flips: those of the `N` cells from `I` on, placed at the coordinates in `V[X]` and `V[Y]`. -/
def drwPixels (s : State) (x y : Reg) (n : Nibble) : List Pixel :=
  spritePixels s.v[x].toNat s.v[y].toNat (((List.range' 0 n.toNat).map (physAddr s.i.toNat)).map s.readMem)

/-- With at most 15 rows no two rows wrap onto one another. -/
theorem drwPixels_nodup (s : State) (x y : Reg) (n : Nibble) : (drwPixels s x y n).Nodup := by
  have hn : n.toNat < 16 := n.isLt
  refine spritePixels_nodup ?_
  simp only [List.length_map, List.length_range']
  omega

theorem mem_drwPixels {s : State} {x y : Reg} {n : Nibble} {px : Fin 64} {py : Fin 32} :
    (px, py) ∈ drwPixels s x y n ↔ SpriteCovers s x y n px py := by
  refine mem_spritePixels.trans (exists₂_congr fun r c => ?_)
  simp [and_left_comm]

/-! ### The draw loop -/

/-- Distinct pixels drawn are exactly those that change. -/
theorem draw_ne_iff {ps : List Pixel} (fb : Framebuffer) (h : ps.Nodup) (px : Fin 64) (py : Fin 32) :
    (fb.draw ps).1[py][px] ≠ fb[py][px] ↔ (px, py) ∈ ps := by
  have hxor : (fb.draw ps).1[py][px] = Bool.xor fb[py][px] (decide ((px, py) ∈ ps)) := draw_get fb h (px, py)
  rw [hxor]
  cases fb[py][px] <;> simp

/-- The draw reports no collision exactly where it finds every pixel of its own clear. -/
theorem draw_hit_eq_false {ps : List Pixel} (fb : Framebuffer) (h : ps.Nodup) :
    (fb.draw ps).2 = false ↔ ∀ q ∈ ps, fb.get q = false := by
  rw [← Bool.not_eq_true, draw_hit fb h]
  simp

/-! ### DRW -/

/-- DRW over a passing block draws its pixels, the coordinates being those before VF takes the collision (D7). -/
theorem exec_drw_of_blockPasses {x y : Reg} {n : Nibble} {s : State} (h : BlockPasses s.params s.i.toNat n.toNat) :
    exec (.drw x y n) s = .next { s.setV Reg.vF (flagByte (s.fb.draw (drwPixels s x y n)).2) with
      fb := (s.fb.draw (drwPixels s x y n)).1 } :=
  withBlock_ok h

/-- Settles O36: DRW draws distinct pixels, those the sprite covers, so each is flipped once and VF tells whether one of
them was set. -/
theorem drawXorsTheSprite : Obligations.DrawXorsTheSprite := by
  unfold Obligations.DrawXorsTheSprite
  intro x y n s word I
  have hnodup := drwPixels_nodup s x y n
  refine ⟨decodeWord_drw x y n, fun hpass => ?_, fun hp hn hI => withBlock_error hp hn hI⟩
  refine ⟨_, exec_drw_of_blockPasses hpass, rfl, fun px py => ?_, ?_, fun hclear => ?_, fun r hr => ?_⟩
  · exact (draw_ne_iff s.fb hnodup px py).trans mem_drwPixels
  · rintro ⟨px, py, hset, hcov⟩
    have hhit : (s.fb.draw (drwPixels s x y n)).2 = true :=
      (draw_hit s.fb hnodup).2 ⟨(px, py), mem_drwPixels.2 hcov, hset⟩
    exact (setV_get ..).trans ((if_pos rfl).trans (congrArg flagByte hhit))
  · have hmiss : (s.fb.draw (drwPixels s x y n)).2 = false :=
      (draw_hit_eq_false s.fb hnodup).2 fun q hq => hclear q.1 q.2 (mem_drwPixels.1 hq)
    exact (setV_get ..).trans ((if_pos rfl).trans (congrArg flagByte hmiss))
  · exact (setV_get ..).trans (if_neg hr)

end Sys2Proof.Machine
end

section
/-! SUPPORT. The keypad (45_keys_timers.md): the key skips (R180 to R182) and the wait for a key (R183). -/

namespace Sys2Proof.Machine

/-! ### Decoding -/

section
variable (x : Reg) (ign n : Nibble)

/-- Primary 0xE leaves the word to the sub-table (R78). -/
theorem decodeWord_primaryE :
    decodeWord (0xE#4 ++ Reg.nibble x ++ ign ++ n) = decodeSubE (0xE#4 ++ Reg.nibble x ++ ign ++ n) := by
  simp [decodeWord, primary_formatXYN]

theorem decodeWord_skp : decodeWord (0xE#4 ++ Reg.nibble x ++ ign ++ 0xE#4) = .ok (.skp x ign) := by
  simp [decodeWord_primaryE, decodeSubE, immN_formatXYN, regX_formatXYN, ignoredXE_formatXYN]

theorem decodeWord_sknp : decodeWord (0xE#4 ++ Reg.nibble x ++ ign ++ 0x1#4) = .ok (.sknp x ign) := by
  simp [decodeWord_primaryE, decodeSubE, immN_formatXYN, regX_formatXYN, ignoredXE_formatXYN]

theorem decodeWord_ldVxK : decodeWord (0xF#4 ++ Reg.nibble x ++ 0x0A#8) = .ok (.ldVxK x) := by
  simp [decodeWord_primaryF, decodeSubF, immNN_formatXNN, regX_formatXNN]

end

/-! ### The key skips (R180, R181, R182) -/

section
variable {x : Reg} {ign : Nibble} {s : State}

/-- With a key named, SKP skips where that key is pressed (R181). -/
theorem exec_skp_of_keyIndex {k : Fin 16} (h : keyIndex s.params.keyIndex s.v[x] = some k) :
    exec (.skp x ign) s = .next { s with pc := if s.key[k] = true then s.pc + 2 else s.pc } := by
  rw [exec, execSkp, h, ← State.skipIf_eq]

/-- With a key named, SKNP skips where that key is not pressed (R182). -/
theorem exec_sknp_of_keyIndex {k : Fin 16} (h : keyIndex s.params.keyIndex s.v[x] = some k) :
    exec (.sknp x ign) s = .next { s with pc := if s.key[k] = true then s.pc else s.pc + 2 } := by
  rw [exec, execSknp, h]
  simp only [State.skipIf_eq, Bool.not_eq_true', ← Bool.not_eq_true, ite_not]

/-- With no key named, SKP faults (R180). -/
theorem exec_skp_of_keyIndex_none (h : keyIndex s.params.keyIndex s.v[x] = none) :
    exec (.skp x ign) s = .fault (.keyRange (encode (.skp x ign)) s.fetchAddr) := by
  rw [exec, execSkp, h]
  rfl

/-- With no key named, SKNP faults (R180). -/
theorem exec_sknp_of_keyIndex_none (h : keyIndex s.params.keyIndex s.v[x] = none) :
    exec (.sknp x ign) s = .fault (.keyRange (encode (.sknp x ign)) s.fetchAddr) := by
  rw [exec, execSknp, h]
  rfl

end

/-- Settles O39: the policy and `V[X]` decide the key, or that none is named, and both meanings follow it. -/
theorem skipOnKey : Obligations.SkipOnKey := by
  unfold Obligations.SkipOnKey
  intro x ign s skp sknp k
  refine ⟨decodeWord_skp x ign, decodeWord_sknp x ign, fun hok => ?_, fun hp hv => ?_⟩
  · have hkey : keyIndex s.params.keyIndex s.v[x] = some k := keyIndex_ok hok
    exact ⟨exec_skp_of_keyIndex hkey, exec_sknp_of_keyIndex hkey⟩
  · have hnone : keyIndex s.params.keyIndex s.v[x] = none := keyIndex_none.2 ⟨hp, hv⟩
    exact ⟨exec_skp_of_keyIndex_none hnone, exec_sknp_of_keyIndex_none hnone⟩

/-! ### The wait for a key (R183) -/

/-- FX0A takes the first pressed key. -/
theorem exec_ldVxK_of_firstKey {x : Reg} {s : State} {k : Fin 16} (h : s.firstKey = some k) :
    exec (.ldVxK x) s = .next (s.setV x (BitVec.ofNat 8 k.val)) := by
  rw [exec, execLdVxK, h]

/-- FX0A with no key pressed rewinds. -/
theorem exec_ldVxK_of_firstKey_none {x : Reg} {s : State} (h : s.firstKey = none) :
    exec (.ldVxK x) s = .next s.rewind := by
  rw [exec, execLdVxK, h]

/-- Settles O40: the first pressed key is the lowest one, whose number fits in a byte; with none pressed there is no first
key. -/
theorem waitForKeyTakesTheLowest : Obligations.WaitForKeyTakesTheLowest := by
  unfold Obligations.WaitForKeyTakesTheLowest
  intro x s
  refine ⟨decodeWord_ldVxK x, fun k hk hlow => ?_, fun hall => ?_⟩
  · obtain ⟨hframe, hval, hother⟩ := setV_onlyRegWritten s x (BitVec.ofNat 8 k.val)
    refine ⟨_, exec_ldVxK_of_firstKey (firstKey_eq_some hk hlow), ⟨hframe, rfl, hother⟩, ?_⟩
    rw [hval, toNat_ofNat_byte (by omega)]
  · exact exec_ldVxK_of_firstKey_none (firstKey_eq_none.2 hall)

end Sys2Proof.Machine
end

section
/-! SUPPORT. UNKNOWN words (60_exceptions.md R201). -/

namespace Sys2Proof.Machine

/-- Settles O11: the step is the advance, the report and the tick (D9), whose effects are on different fields. -/
theorem unknownWordIsReportedAndDoesNothing : Obligations.UnknownWordIsReportedAndDoesNothing := by
  unfold Obligations.UnknownWordIsReportedAndDoesNothing
  intro s w r hs hf hd
  exact ⟨_, step_unknown hs hf hd, rfl, rfl, toNat_decTimer s.dt, toNat_decTimer s.st⟩

end Sys2Proof.Machine
end

section
/-! SUPPORT. The ports of the block (70_reset_and_hazards.md R234 to R238): what a host move does to the keypad and the
parameters, the two answers of `load`, and the order of the bits of `fb_out`. -/

namespace Sys2Proof.Machine

/-! ### The keypad and the parameters -/

theorem afterStep_next {s t : State} (h : step s = .next t) : s.afterStep = t := by
  unfold State.afterStep
  rw [h]

/-- No invocation of `step`, completed or stopping, writes the keypad or the parameters (R34). -/
theorem afterStep_keeps (s : State) : s.afterStep.key = s.key ∧ s.afterStep.params = s.params := by
  cases h : step s with
  | next t =>
    rw [afterStep_next h]
    exact (step_keeps h).2
  | fault f =>
    rw [afterStep_fault h]
    exact ⟨rfl, rfl⟩
  | refused r =>
    rw [afterStep_refused h]
    exact ⟨rfl, rfl⟩

/-- A load, done or reported as too large, leaves the keypad alone (R234). -/
@[simp] theorem State.load_key (s : State) (bytes : List Byte) : (s.load bytes).key = s.key := by
  unfold State.load
  split <;> rfl

@[simp] theorem State.load_params (s : State) (bytes : List Byte) : (s.load bytes).params = s.params := by
  unfold State.load
  split <;> rfl

theorem hostMove_params (s : State) (m : HostMove) : (hostMove s m).params = s.params := by
  cases m with
  | step => exact (afterStep_keeps s).2
  | load bytes => exact State.load_params s bytes
  | keySet k b => rfl
  | reset => rfl

/-- Only reset and `key_set` write the keypad. -/
theorem hostMove_key_of_ne_reset_keySet {s : State} {m : HostMove} (hreset : m ≠ .reset) (hset : ∀ k b, m ≠ .keySet k b) :
    (hostMove s m).key = s.key := by
  cases m with
  | step => exact (afterStep_keeps s).1
  | load bytes => exact State.load_key s bytes
  | keySet k b => exact absurd rfl (hset k b)
  | reset => exact absurd rfl hreset

theorem State.keySet_get (s : State) (k j : Fin 16) (b : Bool) :
    (s.keySet k b).key[j] = if j = k then b else s.key[j] := by
  simp only [State.keySet_key, Fin.getElem_fin, Vector.getElem_set, Fin.ext_iff, eq_comm (a := k.val)]

/-- Settles O42: a move that is neither reset nor `key_set` leaves the keypad, and `key_set` is a write of one entry. -/
theorem keypadWrittenOnlyByTheHost : Obligations.KeypadWrittenOnlyByTheHost := by
  unfold Obligations.KeypadWrittenOnlyByTheHost
  intro s m
  refine ⟨hostMove_params s m, fun hne => ?_, fun k b => ⟨s.keySet k b, rfl, rfl, fun j => s.keySet_get k j b⟩⟩
  by_contra hother
  obtain ⟨hreset, hset⟩ := not_or.1 hother
  exact hne (hostMove_key_of_ne_reset_keySet hreset fun k b hm => hset ⟨k, b, hm⟩)

/-! ### Loading a program -/

theorem State.load_of_le {s : State} {bytes : List Byte} (h : bytes.length ≤ 3584) :
    s.load bytes = (s.writeMem (List.range' 0x200 bytes.length) bytes).setPC entryPoint :=
  if_neg (by omega)

theorem State.load_of_gt {s : State} {bytes : List Byte} (h : bytes.length > 3584) :
    s.load bytes = s.report (.programTooLarge bytes.length) :=
  if_pos h

/-- The cells of a program that fits are in memory: 0x200 + 3584 is 0x1000 (R235). -/
theorem programAddrs_le {n : Nat} (hn : n ≤ 3584) : ∀ a ∈ List.range' 0x200 n, a ≤ 0xFFF := by
  intro a ha
  have := (List.mem_range'_1.1 ha).2
  omega

theorem readMem_load_program {s : State} {bytes : List Byte} (hm : MemoryCanonical s) (hn : bytes.length ≤ 3584) {j : Nat}
    (hj : j < bytes.length) : (s.load bytes).readMem (0x200 + j) = bytes[j] := by
  have hread := Memory.read_writeMany_at (programAddrs_le hn) List.nodup_range' hm
    (by rwa [List.length_range']) hj
  rw [List.getElem_range', Nat.one_mul] at hread
  rw [State.load_of_le hn]
  exact hread

theorem readMem_load_other {s : State} {bytes : List Byte} (hm : MemoryCanonical s) (hn : bytes.length ≤ 3584) {a : Nat}
    (ha : a < 0x200 ∨ 0x200 + bytes.length ≤ a) : (s.load bytes).readMem a = s.readMem a := by
  have hnot : a ∉ List.range' 0x200 bytes.length := by
    rw [List.mem_range'_1]
    omega
  rw [State.load_of_le hn]
  exact readMem_writeMem_other (programAddrs_le hn) hm hnot

/-- Settles O55: a program that fits is a write to distinct cells inside memory and a jump to the entry point; a longer one
is only reported. -/
theorem loadCopiesOrReports : Obligations.LoadCopiesOrReports := by
  unfold Obligations.LoadCopiesOrReports
  intro s bytes hm
  refine ⟨fun hn => ⟨?_, fun _ => readMem_load_program hm hn, fun _ => readMem_load_other hm hn⟩, State.load_of_gt⟩
  rw [State.load_of_le hn]
  rfl

/-! ### The framebuffer port -/

/-- The bits of `fb_out` are the rows of `FB`, one after another. -/
theorem State.fbOut_eq_flatten (s : State) : s.fbOut = s.fb.flatten.toList := by
  simp only [State.fbOut, Vector.flatten, List.flatMap_def, Vector.toList_mk, Array.toList_flatten, Array.toList_map,
    List.map_map]
  rfl

/-- Settles O56: the linear index of a pixel has its row as quotient and its column as remainder by 64 (R33, D23). -/
theorem framebufferPortIsRowMajor : Obligations.FramebufferPortIsRowMajor := by
  unfold Obligations.FramebufferPortIsRowMajor
  intro s
  refine ⟨by rw [State.fbOut_eq_flatten, Vector.length_toList], fun px py => ?_⟩
  have hlt : py.val * 64 + px.val < 32 * 64 := by omega
  have hrow : (py.val * 64 + px.val) / 64 = py.val := by omega
  have hcol : (py.val * 64 + px.val) % 64 = px.val := by omega
  rw [State.fbOut_eq_flatten, Vector.getElem?_toList, Vector.getElem?_eq_getElem hlt, Vector.getElem_flatten]
  simp only [hrow, hcol, Fin.getElem_fin]

end Sys2Proof.Machine
end

section
/-! SUPPORT. The decoder against the encoder (30_encoding.md): decoding an encoded instruction (R71, R73), encoding a decoded
one, the selector tables (R74 to R79), the UNKNOWN words (R80) and the rows of opcode_table.json (R81). -/

namespace Sys2Proof.Machine

/-! ### Decoding an encoded instruction -/

section
variable (x y : Reg) (n : Nibble) (nn ign : Byte) (nnn : Imm12)

theorem decodeWord_cls : decodeWord (0x0#4 ++ ign ++ 0x0#4) = .ok (.cls ign) := by
  simp [decodeWord, decodeSub0, primary_formatS0, immN_formatS0, ignoredS0_formatS0]

theorem decodeWord_call : decodeWord (0x2#4 ++ nnn) = .ok (.call nnn) := by
  simp [decodeWord, primary_formatA, immNNN_formatA]

theorem decodeWord_sneImm : decodeWord (0x4#4 ++ Reg.nibble x ++ nn) = .ok (.sneImm x nn) := by
  simp [decodeWord, primary_formatXNN, regX_formatXNN, immNN_formatXNN]

theorem decodeWord_seReg : decodeWord (0x5#4 ++ Reg.nibble x ++ Reg.nibble y ++ n) = .ok (.seReg x y n) := by
  simp [decodeWord, primary_formatXYN, regX_formatXYN, regY_formatXYN, immN_formatXYN]

theorem decodeWord_addImm : decodeWord (0x7#4 ++ Reg.nibble x ++ nn) = .ok (.addImm x nn) := by
  simp [decodeWord, primary_formatXNN, regX_formatXNN, immNN_formatXNN]

theorem decodeWord_orReg : decodeWord (0x8#4 ++ Reg.nibble x ++ Reg.nibble y ++ 0x1#4) = .ok (.orReg x y) := by
  simp [decodeWord_primary8, decodeSub8, immN_formatXYN, regX_formatXYN, regY_formatXYN]

theorem decodeWord_andReg : decodeWord (0x8#4 ++ Reg.nibble x ++ Reg.nibble y ++ 0x2#4) = .ok (.andReg x y) := by
  simp [decodeWord_primary8, decodeSub8, immN_formatXYN, regX_formatXYN, regY_formatXYN]

theorem decodeWord_xorReg : decodeWord (0x8#4 ++ Reg.nibble x ++ Reg.nibble y ++ 0x3#4) = .ok (.xorReg x y) := by
  simp [decodeWord_primary8, decodeSub8, immN_formatXYN, regX_formatXYN, regY_formatXYN]

theorem decodeWord_sneReg : decodeWord (0x9#4 ++ Reg.nibble x ++ Reg.nibble y ++ 0x0#4) = .ok (.sneReg x y) :=
  (decodeWord_primary9 x y 0x0#4).trans (if_pos rfl)

theorem decodeWord_ldI : decodeWord (0xA#4 ++ nnn) = .ok (.ldI nnn) := by
  simp [decodeWord, primary_formatA, immNNN_formatA]

theorem decodeWord_rnd : decodeWord (0xC#4 ++ Reg.nibble x ++ nn) = .ok (.rnd x nn) := by
  simp [decodeWord, primary_formatXNN, regX_formatXNN, immNN_formatXNN]

theorem decodeWord_ldVxDT : decodeWord (0xF#4 ++ Reg.nibble x ++ 0x07#8) = .ok (.ldVxDT x) := by
  simp [decodeWord_primaryF, decodeSubF, immNN_formatXNN, regX_formatXNN]

theorem decodeWord_ldDTVx : decodeWord (0xF#4 ++ Reg.nibble x ++ 0x15#8) = .ok (.ldDTVx x) := by
  simp [decodeWord_primaryF, decodeSubF, immNN_formatXNN, regX_formatXNN]

theorem decodeWord_ldSTVx : decodeWord (0xF#4 ++ Reg.nibble x ++ 0x18#8) = .ok (.ldSTVx x) := by
  simp [decodeWord_primaryF, decodeSubF, immNN_formatXNN, regX_formatXNN]

theorem decodeWord_addIVx : decodeWord (0xF#4 ++ Reg.nibble x ++ 0x1E#8) = .ok (.addIVx x) := by
  simp [decodeWord_primaryF, decodeSubF, immNN_formatXNN, regX_formatXNN]

end

/-- Settles O1: one decoding rule per constructor. -/
theorem decodeInvertsEncode : Obligations.DecodeInvertsEncode := by
  unfold Obligations.DecodeInvertsEncode
  intro i
  cases i with
  | cls ign => exact decodeWord_cls ign
  | ret ign => exact decodeWord_ret ign
  | jp nnn => exact decodeWord_jp nnn
  | call nnn => exact decodeWord_call nnn
  | seImm x nn => exact decodeWord_seImm x nn
  | sneImm x nn => exact decodeWord_sneImm x nn
  | seReg x y ign => exact decodeWord_seReg x y ign
  | ldImm x nn => exact decodeWord_ldImm x nn
  | addImm x nn => exact decodeWord_addImm x nn
  | ldReg x y => exact decodeWord_ldReg x y
  | orReg x y => exact decodeWord_orReg x y
  | andReg x y => exact decodeWord_andReg x y
  | xorReg x y => exact decodeWord_xorReg x y
  | addReg x y => exact decodeWord_addReg x y
  | subReg x y => exact decodeWord_subReg x y
  | shr x y => exact decodeWord_shr x y
  | subnReg x y => exact decodeWord_subnReg x y
  | shl x y => exact decodeWord_shl x y
  | sneReg x y => exact decodeWord_sneReg x y
  | ldI nnn => exact decodeWord_ldI nnn
  | jpV0 nnn => exact decodeWord_jpV0 nnn
  | rnd x nn => exact decodeWord_rnd x nn
  | drw x y n => exact decodeWord_drw x y n
  | skp x ign => exact decodeWord_skp x ign
  | sknp x ign => exact decodeWord_sknp x ign
  | ldVxDT x => exact decodeWord_ldVxDT x
  | ldVxK x => exact decodeWord_ldVxK x
  | ldDTVx x => exact decodeWord_ldDTVx x
  | ldSTVx x => exact decodeWord_ldSTVx x
  | addIVx x => exact decodeWord_addIVx x
  | ldFVx x => exact decodeWord_ldFVx x
  | ldBVx x => exact decodeWord_ldBVx x
  | ldMemVx x => exact decodeWord_ldMemVx x
  | ldVxMem x => exact decodeWord_ldVxMem x

/-! ### The selector tables (R74 to R79) -/

/-- Settles O3: the primary nibble picks the arm of the decoder, which reads only the named fields. -/
theorem primarySelectorAloneDecides : Obligations.PrimarySelectorAloneDecides := by
  unfold Obligations.PrimarySelectorAloneDecides
  intro w
  refine ⟨?_, ?_, ?_, ?_, ?_, ?_, ?_, ?_, ?_, ?_, ?_⟩ <;>
  · intro (hp : primary w = _)
    rw [decodeWord, hp]
    rfl

section
variable {w : Word}

theorem decodeWord_of_primary0 (hp : primary w = 0x0#4) : decodeWord w = decodeSub0 w := by
  simp [decodeWord, hp]

theorem decodeWord_of_primary8 (hp : primary w = 0x8#4) : decodeWord w = decodeSub8 w := by
  simp [decodeWord, hp]

theorem decodeWord_of_primary9 (hp : primary w = 0x9#4) : decodeWord w = decodeSub9 w := by
  simp [decodeWord, hp]

theorem decodeWord_of_primaryE (hp : primary w = 0xE#4) : decodeWord w = decodeSubE w := by
  simp [decodeWord, hp]

theorem decodeWord_of_primaryF (hp : primary w = 0xF#4) : decodeWord w = decodeSubF w := by
  simp [decodeWord, hp]

end

/-- The sub-selector of primary 0x0 (R75). -/
theorem decodeSub0_eq_ite (w : Word) : decodeSub0 w =
    if immN w = 0x0#4 then .ok (.cls (ignoredS0 w))
    else if immN w = 0xE#4 then .ok (.ret (ignoredS0 w)) else .error (.unknown w) := by
  unfold decodeSub0
  split <;> simp_all

/-- The sub-selector of primary 0x8 (R76). -/
theorem decodeSub8_eq_ite (w : Word) : decodeSub8 w =
    if immN w = 0x0#4 then .ok (.ldReg (regX w) (regY w))
    else if immN w = 0x1#4 then .ok (.orReg (regX w) (regY w))
    else if immN w = 0x2#4 then .ok (.andReg (regX w) (regY w))
    else if immN w = 0x3#4 then .ok (.xorReg (regX w) (regY w))
    else if immN w = 0x4#4 then .ok (.addReg (regX w) (regY w))
    else if immN w = 0x5#4 then .ok (.subReg (regX w) (regY w))
    else if immN w = 0x6#4 then .ok (.shr (regX w) (regY w))
    else if immN w = 0x7#4 then .ok (.subnReg (regX w) (regY w))
    else if immN w = 0xE#4 then .ok (.shl (regX w) (regY w)) else .error (.unknown w) := by
  unfold decodeSub8
  split <;> simp_all

/-- The sub-selector of primary 0xE (R78). -/
theorem decodeSubE_eq_ite (w : Word) : decodeSubE w =
    if immN w = 0xE#4 then .ok (.skp (regX w) (ignoredXE w))
    else if immN w = 0x1#4 then .ok (.sknp (regX w) (ignoredXE w)) else .error (.unknown w) := by
  unfold decodeSubE
  split <;> simp_all

/-- The sub-selector of primary 0xF (R79). -/
theorem decodeSubF_eq_ite (w : Word) : decodeSubF w =
    if immNN w = 0x07#8 then .ok (.ldVxDT (regX w))
    else if immNN w = 0x0A#8 then .ok (.ldVxK (regX w))
    else if immNN w = 0x15#8 then .ok (.ldDTVx (regX w))
    else if immNN w = 0x18#8 then .ok (.ldSTVx (regX w))
    else if immNN w = 0x1E#8 then .ok (.addIVx (regX w))
    else if immNN w = 0x29#8 then .ok (.ldFVx (regX w))
    else if immNN w = 0x33#8 then .ok (.ldBVx (regX w))
    else if immNN w = 0x55#8 then .ok (.ldMemVx (regX w))
    else if immNN w = 0x65#8 then .ok (.ldVxMem (regX w)) else .error (.unknown w) := by
  unfold decodeSubF
  split <;> simp_all

/-- Settles O4: the primary nibble hands the word to its sub-table, and each sub-table is a chain of tests. -/
theorem subSelectorsDecide : Obligations.SubSelectorsDecide := by
  unfold Obligations.SubSelectorsDecide
  intro w x y unknown
  exact ⟨fun hp => (decodeWord_of_primary0 hp).trans (decodeSub0_eq_ite w),
    fun hp => (decodeWord_of_primary8 hp).trans (decodeSub8_eq_ite w),
    fun hp => (decodeWord_of_primary9 hp).trans (decodeSub9_eq_ite w),
    fun hp => (decodeWord_of_primaryE hp).trans (decodeSubE_eq_ite w),
    fun hp => (decodeWord_of_primaryF hp).trans (decodeSubF_eq_ite w)⟩

/-! ### Encoding a decoded word -/

section
variable {w : Word} {p n : Nibble} {nn : Byte} {i : Instr}

theorem formatA_of_fields (hp : primary w = p) : (p ++ immNNN w : Word) = w := by
  rw [← hp, formatA_fields]

theorem formatXNN_of_fields (hp : primary w = p) (hnn : immNN w = nn) : (p ++ Reg.nibble (regX w) ++ nn : Word) = w := by
  rw [← hp, ← hnn, formatXNN_fields]

theorem formatXYN_of_fields (hp : primary w = p) (hn : immN w = n) :
    (p ++ Reg.nibble (regX w) ++ Reg.nibble (regY w) ++ n : Word) = w := by
  rw [← hp, ← hn, formatXYN_fields]

theorem formatXE_of_fields (hp : primary w = p) (hn : immN w = n) :
    (p ++ Reg.nibble (regX w) ++ ignoredXE w ++ n : Word) = w := by
  rw [← hp, ← hn, formatXE_fields]

theorem formatS0_of_fields (hp : primary w = p) (hn : immN w = n) : (p ++ ignoredS0 w ++ n : Word) = w := by
  rw [← hp, ← hn, formatS0_fields]

theorem encode_of_decodeSub0 (hp : primary w = 0x0#4) (h : decodeSub0 w = .ok i) : encode i = w := by
  unfold decodeSub0 at h
  split at h <;> cases h <;> exact formatS0_of_fields hp ‹_›

theorem encode_of_decodeSub8 (hp : primary w = 0x8#4) (h : decodeSub8 w = .ok i) : encode i = w := by
  unfold decodeSub8 at h
  split at h <;> cases h <;> exact formatXYN_of_fields hp ‹_›

theorem encode_of_decodeSub9 (hp : primary w = 0x9#4) (h : decodeSub9 w = .ok i) : encode i = w := by
  unfold decodeSub9 at h
  split at h <;> cases h
  exact formatXYN_of_fields hp ‹_›

theorem encode_of_decodeSubE (hp : primary w = 0xE#4) (h : decodeSubE w = .ok i) : encode i = w := by
  unfold decodeSubE at h
  split at h <;> cases h <;> exact formatXE_of_fields hp ‹_›

theorem encode_of_decodeSubF (hp : primary w = 0xF#4) (h : decodeSubF w = .ok i) : encode i = w := by
  unfold decodeSubF at h
  split at h <;> cases h <;> exact formatXNN_of_fields hp ‹_›

end

/-- What is left when the first fifteen primary values are excluded. -/
theorem eq_primaryF : ∀ p : Nibble, p ∉ [0x0#4, 0x1#4, 0x2#4, 0x3#4, 0x4#4, 0x5#4, 0x6#4, 0x7#4, 0x8#4, 0x9#4, 0xA#4,
    0xB#4, 0xC#4, 0xD#4, 0xE#4] → p = 0xF#4 := by
  decide

/-- Settles O2: each arm of the decoder puts the fields it read into the format it read them from. -/
theorem encodeInvertsDecode : Obligations.EncodeInvertsDecode := by
  unfold Obligations.EncodeInvertsDecode
  intro w i h
  unfold decodeWord at h
  split at h
  case h_1 hp => exact encode_of_decodeSub0 hp h
  case h_9 hp => exact encode_of_decodeSub8 hp h
  case h_10 hp => exact encode_of_decodeSub9 hp h
  case h_15 hp => exact encode_of_decodeSubE hp h
  case h_16 => exact encode_of_decodeSubF (eq_primaryF _ (by simp_all)) h
  case h_2 hp | h_3 hp | h_11 hp | h_12 hp => cases h; exact formatA_of_fields hp
  case h_4 hp | h_5 hp | h_7 hp | h_8 hp | h_13 hp => cases h; exact formatXNN_of_fields hp rfl
  case h_6 hp | h_14 hp => cases h; exact formatXYN_of_fields hp rfl

/-! ### The UNKNOWN words (R80) -/

section
variable (w : Word)

theorem decodeSub0_error : (∃ r, decodeSub0 w = .error r) ↔ immN w ∉ [0x0#4, 0xE#4] := by
  unfold decodeSub0
  split <;> simp_all

/-- Of the low nibbles under primary 0x8, those that R76 does not list. -/
theorem unlisted_sub8 : ∀ n : Nibble, n ∉ [0x0#4, 0x1#4, 0x2#4, 0x3#4, 0x4#4, 0x5#4, 0x6#4, 0x7#4, 0xE#4] ↔
    n ∈ [0x8#4, 0x9#4, 0xA#4, 0xB#4, 0xC#4, 0xD#4, 0xF#4] := by
  decide

theorem decodeSub8_error :
    (∃ r, decodeSub8 w = .error r) ↔ immN w ∈ [0x8#4, 0x9#4, 0xA#4, 0xB#4, 0xC#4, 0xD#4, 0xF#4] := by
  rw [← unlisted_sub8]
  unfold decodeSub8
  split <;> simp_all

theorem decodeSub9_error : (∃ r, decodeSub9 w = .error r) ↔ immN w ≠ 0x0#4 := by
  unfold decodeSub9
  split <;> simp_all

theorem decodeSubE_error : (∃ r, decodeSubE w = .error r) ↔ immN w ∉ [0x1#4, 0xE#4] := by
  unfold decodeSubE
  split <;> simp_all

theorem decodeSubF_error : (∃ r, decodeSubF w = .error r) ↔
    immNN w ∉ [0x07#8, 0x0A#8, 0x15#8, 0x18#8, 0x1E#8, 0x29#8, 0x33#8, 0x55#8, 0x65#8] := by
  unfold decodeSubF
  split <;> simp_all

/-- The UNKNOWN words by the named fields. -/
theorem decodeWord_error : (∃ r, decodeWord w = .error r) ↔
    (primary w = 0x0#4 ∧ immN w ∉ [0x0#4, 0xE#4]) ∨
    (primary w = 0x8#4 ∧ immN w ∈ [0x8#4, 0x9#4, 0xA#4, 0xB#4, 0xC#4, 0xD#4, 0xF#4]) ∨
    (primary w = 0x9#4 ∧ immN w ≠ 0x0#4) ∨
    (primary w = 0xE#4 ∧ immN w ∉ [0x1#4, 0xE#4]) ∨
    (primary w = 0xF#4 ∧ immNN w ∉ [0x07#8, 0x0A#8, 0x15#8, 0x18#8, 0x1E#8, 0x29#8, 0x33#8, 0x55#8, 0x65#8]) := by
  unfold decodeWord
  split
  case h_1 hp => simp only [decodeSub0_error, hp]; simp
  case h_9 hp => simp only [decodeSub8_error, hp]; simp
  case h_10 hp => simp only [decodeSub9_error, hp]; simp
  case h_15 hp => simp only [decodeSubE_error, hp]; simp
  case h_16 =>
    have hp : primary w = 0xF#4 := eq_primaryF _ (by simp_all)
    simp only [decodeSubF_error, hp]; simp
  all_goals
    rename_i hp
    simp [hp]

end

/-- Settles O5: a word is UNKNOWN exactly where a sub-table lists no entry for it. -/
theorem unknownWordsInFull : Obligations.UnknownWordsInFull := by
  unfold Obligations.UnknownWordsInFull
  exact decodeWord_error

/-! ### The rows of the opcode table (R81) -/

/-- The word of an instruction is in the instruction's row. -/
theorem encode_mem_row (i : Instr) : encode i &&& i.row.mask = i.row.value := by
  cases i
  case cls | ret => exact Laws.TableRow.mask_formatS0 ..
  case jp | call | ldI | jpV0 => exact Laws.TableRow.mask_formatA ..
  case seImm | sneImm | ldImm | addImm | rnd => exact Laws.TableRow.mask_formatXNN ..
  case seReg | drw => exact Laws.TableRow.mask_formatXYN ..
  case ldVxDT | ldVxK | ldDTVx | ldSTVx | addIVx | ldFVx | ldBVx | ldMemVx | ldVxMem =>
    exact Laws.TableRow.mask_formatXF ..
  all_goals exact Laws.TableRow.mask_formatXY ..

/-! The fields a row fixes, its match written in the format of the row. -/

section
variable {w : Word} {p n : Nibble} {nn : Byte}

theorem primary_of_mem_row (h : w &&& 0xF000#16 = (p ++ 0#12 : Word)) : primary w = p := by
  rw [← formatA_fields w, Laws.TableRow.mask_formatA] at h
  simpa only [primary_formatA] using congrArg primary h

theorem primary_immN_of_mem_row (h : w &&& 0xF00F#16 = (p ++ 0#8 ++ n : Word)) : primary w = p ∧ immN w = n := by
  rw [← formatS0_fields w, Laws.TableRow.mask_formatS0] at h
  exact ⟨by simpa only [primary_formatS0] using congrArg primary h, by simpa only [immN_formatS0] using congrArg immN h⟩

theorem primary_immNN_of_mem_row (h : w &&& 0xF0FF#16 = (p ++ 0#4 ++ nn : Word)) : primary w = p ∧ immNN w = nn := by
  rw [← formatXNN_fields w, Laws.TableRow.mask_formatXF] at h
  exact ⟨by simpa only [primary_formatXNN] using congrArg primary h,
    by simpa only [immNN_formatXNN] using congrArg immNN h⟩

theorem formatA_of_mem_row (h : w &&& 0xF000#16 = (p ++ 0#12 : Word)) : (p ++ immNNN w : Word) = w :=
  formatA_of_fields (primary_of_mem_row h)

theorem formatXNN_of_mem_row (h : w &&& 0xF000#16 = (p ++ 0#12 : Word)) :
    (p ++ Reg.nibble (regX w) ++ immNN w : Word) = w :=
  formatXNN_of_fields (primary_of_mem_row h) rfl

theorem formatXYN_of_mem_row (h : w &&& 0xF000#16 = (p ++ 0#12 : Word)) :
    (p ++ Reg.nibble (regX w) ++ Reg.nibble (regY w) ++ immN w : Word) = w :=
  formatXYN_of_fields (primary_of_mem_row h) rfl

theorem formatS0_of_mem_row (h : w &&& 0xF00F#16 = (p ++ 0#8 ++ n : Word)) : (p ++ ignoredS0 w ++ n : Word) = w :=
  formatS0_of_fields (primary_immN_of_mem_row h).1 (primary_immN_of_mem_row h).2

theorem formatXY_of_mem_row (h : w &&& 0xF00F#16 = (p ++ 0#8 ++ n : Word)) :
    (p ++ Reg.nibble (regX w) ++ Reg.nibble (regY w) ++ n : Word) = w :=
  formatXYN_of_fields (primary_immN_of_mem_row h).1 (primary_immN_of_mem_row h).2

theorem formatXE_of_mem_row (h : w &&& 0xF00F#16 = (p ++ 0#8 ++ n : Word)) :
    (p ++ Reg.nibble (regX w) ++ ignoredXE w ++ n : Word) = w :=
  formatXE_of_fields (primary_immN_of_mem_row h).1 (primary_immN_of_mem_row h).2

theorem formatXF_of_mem_row (h : w &&& 0xF0FF#16 = (p ++ 0#4 ++ nn : Word)) :
    (p ++ Reg.nibble (regX w) ++ nn : Word) = w :=
  formatXNN_of_fields (primary_immNN_of_mem_row h).1 (primary_immNN_of_mem_row h).2

end

/-- A word in a row is the encoding of an instruction of that row, its operands being the word's own fields. -/
theorem exists_encode_of_mem_row {w : Word} {j : Instr} (h : w &&& j.row.mask = j.row.value) :
    ∃ i, encode i = w ∧ i.row = j.row := by
  cases j with
  | cls _ => exact ⟨.cls (ignoredS0 w), formatS0_of_mem_row h, rfl⟩
  | ret _ => exact ⟨.ret (ignoredS0 w), formatS0_of_mem_row h, rfl⟩
  | jp _ => exact ⟨.jp (immNNN w), formatA_of_mem_row h, rfl⟩
  | call _ => exact ⟨.call (immNNN w), formatA_of_mem_row h, rfl⟩
  | seImm _ _ => exact ⟨.seImm (regX w) (immNN w), formatXNN_of_mem_row h, rfl⟩
  | sneImm _ _ => exact ⟨.sneImm (regX w) (immNN w), formatXNN_of_mem_row h, rfl⟩
  | seReg _ _ _ => exact ⟨.seReg (regX w) (regY w) (immN w), formatXYN_of_mem_row h, rfl⟩
  | ldImm _ _ => exact ⟨.ldImm (regX w) (immNN w), formatXNN_of_mem_row h, rfl⟩
  | addImm _ _ => exact ⟨.addImm (regX w) (immNN w), formatXNN_of_mem_row h, rfl⟩
  | ldReg _ _ => exact ⟨.ldReg (regX w) (regY w), formatXY_of_mem_row h, rfl⟩
  | orReg _ _ => exact ⟨.orReg (regX w) (regY w), formatXY_of_mem_row h, rfl⟩
  | andReg _ _ => exact ⟨.andReg (regX w) (regY w), formatXY_of_mem_row h, rfl⟩
  | xorReg _ _ => exact ⟨.xorReg (regX w) (regY w), formatXY_of_mem_row h, rfl⟩
  | addReg _ _ => exact ⟨.addReg (regX w) (regY w), formatXY_of_mem_row h, rfl⟩
  | subReg _ _ => exact ⟨.subReg (regX w) (regY w), formatXY_of_mem_row h, rfl⟩
  | shr _ _ => exact ⟨.shr (regX w) (regY w), formatXY_of_mem_row h, rfl⟩
  | subnReg _ _ => exact ⟨.subnReg (regX w) (regY w), formatXY_of_mem_row h, rfl⟩
  | shl _ _ => exact ⟨.shl (regX w) (regY w), formatXY_of_mem_row h, rfl⟩
  | sneReg _ _ => exact ⟨.sneReg (regX w) (regY w), formatXY_of_mem_row h, rfl⟩
  | ldI _ => exact ⟨.ldI (immNNN w), formatA_of_mem_row h, rfl⟩
  | jpV0 _ => exact ⟨.jpV0 (immNNN w), formatA_of_mem_row h, rfl⟩
  | rnd _ _ => exact ⟨.rnd (regX w) (immNN w), formatXNN_of_mem_row h, rfl⟩
  | drw _ _ _ => exact ⟨.drw (regX w) (regY w) (immN w), formatXYN_of_mem_row h, rfl⟩
  | skp _ _ => exact ⟨.skp (regX w) (ignoredXE w), formatXE_of_mem_row h, rfl⟩
  | sknp _ _ => exact ⟨.sknp (regX w) (ignoredXE w), formatXE_of_mem_row h, rfl⟩
  | ldVxDT _ => exact ⟨.ldVxDT (regX w), formatXF_of_mem_row h, rfl⟩
  | ldVxK _ => exact ⟨.ldVxK (regX w), formatXF_of_mem_row h, rfl⟩
  | ldDTVx _ => exact ⟨.ldDTVx (regX w), formatXF_of_mem_row h, rfl⟩
  | ldSTVx _ => exact ⟨.ldSTVx (regX w), formatXF_of_mem_row h, rfl⟩
  | addIVx _ => exact ⟨.addIVx (regX w), formatXF_of_mem_row h, rfl⟩
  | ldFVx _ => exact ⟨.ldFVx (regX w), formatXF_of_mem_row h, rfl⟩
  | ldBVx _ => exact ⟨.ldBVx (regX w), formatXF_of_mem_row h, rfl⟩
  | ldMemVx _ => exact ⟨.ldMemVx (regX w), formatXF_of_mem_row h, rfl⟩
  | ldVxMem _ => exact ⟨.ldVxMem (regX w), formatXF_of_mem_row h, rfl⟩

/-- Settles O6: the words of a row are the encodings of its instructions, and decoding inverts encoding both ways. -/
theorem opcodeRowsArePairwiseDisjoint : Obligations.OpcodeRowsArePairwiseDisjoint := by
  unfold Obligations.OpcodeRowsArePairwiseDisjoint
  intro w j
  constructor
  · intro h
    obtain ⟨i, rfl, hrow⟩ := exists_encode_of_mem_row h
    exact ⟨i, decodeInvertsEncode i, hrow⟩
  · rintro ⟨i, hd, hrow⟩
    rw [← encodeInvertsDecode w i hd, ← hrow]
    exact encode_mem_row i

/-! ### Decoding bytes (R52, R70) -/

theorem toNat_wordOfBytes (hi lo : Byte) : (wordOfBytes hi lo).toNat = hi.toNat * 256 + lo.toNat :=
  toNat_concat hi lo

/-- Settles O7: the word of two bytes is the only one with that number. -/
theorem decoderConsumesTwoBytesBigEndian : Obligations.DecoderConsumesTwoBytesBigEndian := by
  unfold Obligations.DecoderConsumesTwoBytesBigEndian
  intro hi lo rest i
  have hdecode : decode (hi :: lo :: rest) = .ok (i, rest) ↔ decodeWord (wordOfBytes hi lo) = .ok i := by
    rw [decode]
    cases decodeWord (wordOfBytes hi lo) <;> simp
  rw [hdecode]
  constructor
  · exact fun h => ⟨_, toNat_wordOfBytes hi lo, h⟩
  · rintro ⟨w, hw, h⟩
    obtain rfl : w = wordOfBytes hi lo := BitVec.eq_of_toNat_eq (hw.trans (toNat_wordOfBytes hi lo).symm)
    exact h

/-- Settles O8: the decoder evaluated on each of the eight words. -/
theorem sampleWordsDecode : Obligations.SampleWordsDecode := by
  unfold Obligations.SampleWordsDecode
  decide

end Sys2Proof.Machine
end

section
/-! SUPPORT. Control transfer (41_flow.md): SNE on an immediate and SE on registers (R105, R106), CALL (R103), and RET on
what a CALL left (R97). -/

namespace Sys2Proof.Machine

/-! ### The skips -/

/-- SNE skips on inequality (R105). -/
theorem exec_sneImm (x : Reg) (nn : Byte) (s : State) :
    exec (.sneImm x nn) s = .next { s with pc := if s.v[x] = nn then s.pc else s.pc + 2 } := by
  rw [exec, execSneImm, State.skipIf_eq]
  simp only [bne_iff_ne, ite_not]

/-- SE skips on equality (R106). -/
theorem exec_seReg (x y : Reg) (ign : Nibble) (s : State) :
    exec (.seReg x y ign) s = .next { s with pc := if s.v[x] = s.v[y] then s.pc + 2 else s.pc } := by
  rw [exec, execSeReg, State.skipIf_eq]
  simp only [beq_iff_eq]

/-- Settles O15: each skip is a `skipIf`, which changes only `PC`. -/
theorem skipOnUnequalImmediateOrEqualRegisters : Obligations.SkipOnUnequalImmediateOrEqualRegisters := by
  unfold Obligations.SkipOnUnequalImmediateOrEqualRegisters
  intro x y nn n s
  exact ⟨decodeWord_sneImm x nn, decodeWord_seReg x y n, exec_sneImm x nn s, exec_seReg x y n s⟩

/-! ### CALL -/

section
variable {nnn : Imm12} {s : State}

/-- CALL with room on the stack pushes the advanced `PC` and jumps (R103). -/
theorem exec_call_of_lt (h : s.sp.val < 16) :
    exec (.call nnn) s = .next
      { s with stack := s.stack.set s.sp.val s.pc, sp := ⟨s.sp.val + 1, by omega⟩, pc := zext12 nnn } := by
  rw [exec, execCall, push_eq_some h]
  rfl

/-- CALL with 16 live entries only reports (R103). -/
theorem exec_call_of_full (h : s.sp.val = 16) :
    exec (.call nnn) s = .next (s.report (.stackOverflow (encode (.call nnn)) s.fetchAddr)) := by
  rw [exec, execCall, push_eq_none.2 h]

end

/-- Settles O17: CALL is the push and the jump, which write one entry, `SP` and `PC`, or a report. -/
theorem callPushesAndJumpsOrReports : Obligations.CallPushesAndJumpsOrReports := by
  unfold Obligations.CallPushesAndJumpsOrReports
  intro nnn s
  refine ⟨decodeWord_call nnn, fun j hj => ?_, exec_call_of_full⟩
  have hlt : s.sp.val < 16 := hj ▸ j.isLt
  refine ⟨_, exec_call_of_lt hlt, rfl, rfl, toNat_zext12 nnn, ?_, fun k hk => ?_⟩
  · simp [hj]
  · have hne : s.sp.val ≠ k.val := fun h => hk (Fin.ext (h.symm.trans hj))
    simp [hne]

/-- Settles O19: the entry RET pops is the one CALL pushed, at the depth CALL left. -/
theorem retResumesAfterTheCall : Obligations.RetResumesAfterTheCall := by
  unfold Obligations.RetResumesAfterTheCall
  intro nnn ign s t u hlt hcall hstack hsp
  rw [exec_call_of_lt hlt] at hcall
  cases hcall
  have hpop := pop_eq_some (s := u) hlt (congrArg Fin.val hsp)
  refine ⟨_, exec_ret_of_pop hpop, ?_, rfl⟩
  simp [hstack]

end Sys2Proof.Machine
end

section
/-! SUPPORT. What a completed instruction leaves unchanged, said once for all 34 (10_state.md), and the invariants that
follow: canonical memory (R50), who writes the general registers (R22), `I` (R157), the pixels (R170), the report stream
(R202) and `PC` (R25). -/

namespace Sys2Proof.Machine

/-! ### The frames of the instructions -/

/-- From `s` to `t`, only the fields that the instruction writes have changed. -/
def ExecFrame (s t : State) : Instr → Prop
  | .cls _ => t = { s with fb := t.fb }
  | .ret _ => t = { s with sp := t.sp, pc := t.pc, reportOut := t.reportOut }
  | .call _ => t = { s with stack := t.stack, sp := t.sp, pc := t.pc, reportOut := t.reportOut }
  | .jp _ | .jpV0 _ | .seImm _ _ | .sneImm _ _ | .seReg _ _ _ | .sneReg _ _ | .skp _ _ | .sknp _ _ =>
    t = { s with pc := t.pc }
  | .ldImm _ _ | .addImm _ _ | .ldReg _ _ | .orReg _ _ | .andReg _ _ | .xorReg _ _ | .addReg _ _ | .subReg _ _
  | .shr _ _ | .subnReg _ _ | .shl _ _ | .ldVxDT _ | .ldVxMem _ => t = { s with v := t.v }
  | .ldVxK _ => t = { s with v := t.v, pc := t.pc }
  | .rnd _ _ => t = { s with v := t.v, draws := t.draws }
  | .drw _ _ _ => t = { s with v := t.v, fb := t.fb }
  | .ldI _ | .addIVx _ | .ldFVx _ => t = { s with i := t.i }
  | .ldDTVx _ => t = { s with dt := t.dt }
  | .ldSTVx _ => t = { s with st := t.st }
  | .ldBVx _ | .ldMemVx _ => t = { s with mem := t.mem }

theorem skipIf_frame (s : State) (c : Bool) : s.skipIf c = { s with pc := (s.skipIf c).pc } := by
  cases c <;> rfl

/-- The key that a register value names, where it names one, is its low nibble (R180). -/
theorem eq_of_keyIndex_eq_some {p : KeyIndexPolicy} {b : Byte} {k : Fin 16} (h : keyIndex p b = some k) :
    k = Fin.ofNat 16 b.toNat := by
  have hok : p = .mask4 ∨ b.toNat ≤ 15 := by
    by_contra hnot
    have hnone : keyIndex p b = none := keyIndex_none.2 (by cases p <;> simp_all)
    simp [hnone] at h
  exact Option.some.inj (h.symm.trans (keyIndex_ok hok))

/-- A completed SKP tests the key that the low nibble of `V[X]` names (R181). -/
theorem exec_skp_next {x : Reg} {ign : Nibble} {s t : State} (h : exec (.skp x ign) s = .next t) :
    t = s.skipIf s.key[Fin.ofNat 16 (s.v[x]).toNat] := by
  simp only [exec, execSkp] at h
  split at h <;> cases h
  rename_i hk
  rw [eq_of_keyIndex_eq_some hk]

/-- A completed SKNP tests the same key the other way (R182). -/
theorem exec_sknp_next {x : Reg} {ign : Nibble} {s t : State} (h : exec (.sknp x ign) s = .next t) :
    t = s.skipIf !s.key[Fin.ofNat 16 (s.v[x]).toNat] := by
  simp only [exec, execSknp] at h
  split at h <;> cases h
  rename_i hk
  rw [eq_of_keyIndex_eq_some hk]

/-- A completed FX29 points `I` at the glyph of a number below 256 (R153). -/
theorem exec_ldFVx_next {x : Reg} {s t : State} (h : exec (.ldFVx x) s = .next t) :
    ∃ d, d < 256 ∧ t = s.setI (glyphAddr d) := by
  simp only [exec, execLdFVx] at h
  split at h <;> cases h
  rename_i d hd
  refine ⟨d, ?_, rfl⟩
  have hv : (s.v[x]).toNat < 256 := (s.v[x]).isLt
  unfold glyphIndex at hd
  split at hd
  · cases hd; exact hv
  · cases hd; omega
  · split at hd <;> cases hd
    exact hv

/-- FX0A takes the first pressed key, or rewinds where there is none (R183). -/
theorem exec_ldVxK_next {x : Reg} {s t : State} (h : exec (.ldVxK x) s = .next t) :
    (∃ k, s.firstKey = some k ∧ t = s.setV x (BitVec.ofNat 8 k.val)) ∨ (s.firstKey = none ∧ t = s.rewind) := by
  cases hk : s.firstKey with
  | none => rw [exec_ldVxK_of_firstKey_none hk] at h; cases h; exact .inr ⟨rfl, rfl⟩
  | some k => rw [exec_ldVxK_of_firstKey hk] at h; cases h; exact .inl ⟨k, rfl, rfl⟩

/-- RET pops, or reports at depth 0 (R101). -/
theorem exec_ret_next {ign : Byte} {s t : State} (h : exec (.ret ign) s = .next t) :
    s.pop = some t ∨ (s.sp.val = 0 ∧ t = s.report (.stackUnderflow (encode (.ret ign)) s.fetchAddr)) := by
  cases hp : s.pop with
  | none => rw [exec_ret_of_pop_none hp] at h; cases h; exact .inr ⟨pop_eq_none.1 hp, rfl⟩
  | some u => rw [exec_ret_of_pop hp] at h; cases h; exact .inl rfl

/-- CALL pushes and jumps, or reports at depth 16 (R103). -/
theorem exec_call_next {nnn : Imm12} {s t : State} (h : exec (.call nnn) s = .next t) :
    (∃ hlt : s.sp.val < 16, t = { s with
      stack := s.stack.set s.sp.val s.pc, sp := ⟨s.sp.val + 1, by omega⟩, pc := zext12 nnn }) ∨
    (s.sp.val = 16 ∧ t = s.report (.stackOverflow (encode (.call nnn)) s.fetchAddr)) := by
  by_cases hlt : s.sp.val < 16
  · rw [exec_call_of_lt hlt] at h
    cases h
    exact .inl ⟨hlt, rfl⟩
  · have hfull : s.sp.val = 16 := by omega
    rw [exec_call_of_full hfull] at h
    cases h
    exact .inr ⟨hfull, rfl⟩

/-- Every instruction that completes keeps to its frame. -/
theorem exec_frame {i : Instr} {s t : State} (h : exec i s = .next t) : ExecFrame s t i := by
  cases i
  case ret =>
    obtain hpop | ⟨-, rfl⟩ := exec_ret_next h
    · rw [pop_frame hpop]; rfl
    · rfl
  case call => obtain ⟨_, rfl⟩ | ⟨-, rfl⟩ := exec_call_next h <;> rfl
  case seImm | sneImm | seReg | sneReg => cases h; exact skipIf_frame ..
  case skp => obtain rfl := exec_skp_next h; exact skipIf_frame ..
  case sknp => obtain rfl := exec_sknp_next h; exact skipIf_frame ..
  case ldFVx => obtain ⟨_, -, rfl⟩ := exec_ldFVx_next h; rfl
  case ldVxK => obtain ⟨_, -, rfl⟩ | ⟨-, rfl⟩ := exec_ldVxK_next h <;> rfl
  case addReg | subReg | shr | subnReg | shl => obtain rfl := aluVF_next h; rfl
  case ldBVx | ldMemVx | ldVxMem | drw => obtain ⟨-, rfl⟩ := withBlock_next h; rfl
  all_goals cases h; rfl

/-- A completed step with a given word: an UNKNOWN word was reported, or the word's instruction answered the state that the
tick ends. -/
theorem step_next_cases_of_fetch {s t : State} {w : Word} (hf : fetch s = .ok w) (h : step s = .next t) :
    (∃ r, decodeWord w = .error r ∧ t = (s.advance.report (.unknownOpcode w s.pc)).tick) ∨
      ∃ i u, decodeWord w = .ok i ∧ exec i s.advance = .next u ∧ t = u.tick := by
  obtain ⟨-, w', hf', hcases⟩ := step_next_cases h
  obtain rfl : w = w' := Except.ok.inj (hf.symm.trans hf')
  exact hcases

/-! ### Canonical memory (R50) -/

/-- Only the two stores write memory, and a store keeps the canonical form. -/
theorem exec_canonical {i : Instr} {s t : State} (hs : MemoryCanonical s) (h : exec i s = .next t) : MemoryCanonical t := by
  cases i
  case ldBVx | ldMemVx =>
    obtain ⟨-, rfl⟩ := withBlock_next h
    exact writeMem_inv (physAddrs_le _ _) hs
  all_goals exact (congrArg MemoryCanonical (exec_frame h)).mpr hs

/-- Settles O51: the advance, the report and the tick leave memory alone, and every meaning keeps the form. -/
theorem everyStepKeepsTheInvariant : Obligations.EveryStepKeepsTheInvariant := by
  unfold Obligations.EveryStepKeepsTheInvariant
  intro s t hs hstep
  obtain ⟨-, w, -, ⟨r, -, rfl⟩ | ⟨i, u, -, hu, rfl⟩⟩ := step_next_cases hstep
  · exact hs
  · have hu' : MemoryCanonical u := exec_canonical (s := s.advance) hs hu
    exact hu'

/-- Settles O50: no cell is listed at creation. -/
theorem resetMeetsTheInvariant : Obligations.ResetMeetsTheInvariant := by
  unfold Obligations.ResetMeetsTheInvariant
  exact ⟨rfl, fun _ => rfl⟩

theorem afterStep_canonical {s : State} (hs : MemoryCanonical s) : MemoryCanonical s.afterStep := by
  cases h : step s with
  | next t => rw [afterStep_next h]; exact everyStepKeepsTheInvariant s t hs h
  | fault f => rw [afterStep_fault h]; exact hs
  | refused r => rw [afterStep_refused h]; exact hs

theorem load_canonical {s : State} (bytes : List Byte) (hs : MemoryCanonical s) : MemoryCanonical (s.load bytes) := by
  by_cases hn : bytes.length ≤ 3584
  · rw [State.load_of_le hn]
    exact writeMem_inv (s := s) (programAddrs_le hn) hs
  · rw [State.load_of_gt (by omega)]
    exact hs

theorem hostMove_canonical {s : State} (m : HostMove) (hs : MemoryCanonical s) : MemoryCanonical (hostMove s m) := by
  cases m with
  | step => exact afterStep_canonical hs
  | load bytes => exact load_canonical bytes hs
  | keySet k b => exact hs
  | reset => exact resetMeetsTheInvariant.2 s.params

/-- Settles O52: by induction on the moves. -/
theorem hostMovesKeepTheInvariant : Obligations.HostMovesKeepTheInvariant := by
  unfold Obligations.HostMovesKeepTheInvariant
  intro s ms hs
  induction ms generalizing s with
  | nil => exact hs
  | cons m ms ih => exact ih (hostMove s m) (hostMove_canonical m hs)

/-! ### The general registers (R22) -/

/-- A register that the instruction does not name keeps its value. -/
theorem exec_v_of_not_mayWriteReg {i : Instr} {s t : State} {r : Reg} (hr : ¬ MayWriteReg i r) (h : exec i s = .next t) :
    t.v[r] = s.v[r] := by
  cases i
  case ldImm | addImm | ldReg | orReg | andReg | xorReg | rnd | ldVxDT =>
    cases h
    exact (setV_get ..).trans (if_neg hr)
  case ldVxK =>
    obtain ⟨_, -, rfl⟩ | ⟨-, rfl⟩ := exec_ldVxK_next h
    · exact (setV_get ..).trans (if_neg hr)
    · rfl
  case addReg | subReg | shr | subnReg | shl =>
    obtain ⟨hx, hF⟩ := not_or.1 hr
    obtain rfl := aluVF_next h
    exact ((setV_get ..).trans (if_neg hF)).trans ((setV_get ..).trans (if_neg hx))
  case drw =>
    obtain ⟨-, rfl⟩ := withBlock_next h
    exact (setV_get ..).trans (if_neg hr)
  case ldVxMem x =>
    obtain ⟨-, rfl⟩ := withBlock_next h
    have hout : ¬ r.val < x.val + 1 := fun hlt => hr (Nat.le_of_lt_succ hlt)
    exact (setRegsFrom_block_get ..).trans (if_neg hout)
  all_goals exact (congrArg (fun u : State => u.v[r]) (exec_frame h) :)

/-- Settles O26: the advance, the report and the tick leave the registers alone, and a meaning writes only those it names. -/
theorem onlyNamedRegistersAreWritten : Obligations.OnlyNamedRegistersAreWritten := by
  unfold Obligations.OnlyNamedRegistersAreWritten
  intro s t w r _ hf hstep hne
  obtain ⟨_, -, rfl⟩ | ⟨i, u, hd, hu, rfl⟩ := step_next_cases_of_fetch hf hstep
  · exact absurd rfl hne
  · refine ⟨i, hd, ?_⟩
    by_contra hr
    exact hne (exec_v_of_not_mayWriteReg hr hu :)

/-! ### The index register (R157) -/

/-- What an instruction can do to `I`. -/
theorem exec_i_cases {i : Instr} {s t : State} (h : exec i s = .next t) : t.i = s.i ∨
    (∃ nnn, i = .ldI nnn ∧ t.i.toNat ≤ 0xFFF) ∨ (∃ x, i = .ldFVx x ∧ t.i.toNat ≤ 0x54B) ∨ (∃ x, i = .addIVx x) := by
  cases i
  case ldI nnn =>
    cases h
    have hle : (zext12 nnn).toNat ≤ 0xFFF := (toNat_zext12 nnn).trans_le (Nat.le_of_lt_succ nnn.isLt)
    exact .inr (.inl ⟨nnn, rfl, hle⟩)
  case ldFVx x =>
    obtain ⟨d, hd, rfl⟩ := exec_ldFVx_next h
    have hle : (glyphAddr d).toNat ≤ 0x54B := by rw [toNat_glyphAddr hd]; omega
    exact .inr (.inr (.inl ⟨x, rfl, hle⟩))
  case addIVx x => exact .inr (.inr (.inr ⟨x, rfl⟩))
  all_goals exact .inl (congrArg State.i (exec_frame h) :)

/-- Settles O32: the advance, the report and the tick leave `I` alone, so a change is the meaning's. -/
theorem indexWrittenOnlyByItsWriters : Obligations.IndexWrittenOnlyByItsWriters := by
  unfold Obligations.IndexWrittenOnlyByItsWriters
  intro s t w _ hf hstep hne
  obtain ⟨_, -, rfl⟩ | ⟨i, u, hd, hu, rfl⟩ := step_next_cases_of_fetch hf hstep
  · exact absurd rfl hne
  · obtain hsame | ⟨nnn, rfl, hle⟩ | ⟨x, rfl, hle⟩ | ⟨x, rfl⟩ := exec_i_cases hu
    · exact absurd hsame hne
    · exact .inl ⟨nnn, hd, hle⟩
    · exact .inr (.inl ⟨x, hd, hle⟩)
    · exact .inr (.inr ⟨x, hd⟩)

/-! ### The pixels (R170) -/

/-- What an instruction can do to the pixels: only CLS and DRW write them. -/
theorem exec_fb_cases {i : Instr} {s t : State} (h : exec i s = .next t) :
    t.fb = s.fb ∨ (∃ ign, i = .cls ign) ∨ ∃ x y n, i = .drw x y n := by
  cases i
  case cls ign => exact .inr (.inl ⟨ign, rfl⟩)
  case drw x y n => exact .inr (.inr ⟨x, y, n, rfl⟩)
  all_goals exact .inl (congrArg State.fb (exec_frame h) :)

/-- A load, done or reported as too large, leaves the pixels alone (R234). -/
@[simp] theorem State.load_fb (s : State) (bytes : List Byte) : (s.load bytes).fb = s.fb := by
  unfold State.load
  split <;> rfl

/-- An invocation of `step` that changes a pixel completes, and its word decodes to CLS or DRW. -/
theorem afterStep_fb_cases (s : State) : s.afterStep.fb = s.fb ∨ ∃ w, fetch s = .ok w ∧
    ((∃ ign, decodeWord w = .ok (.cls ign)) ∨ ∃ x y n, decodeWord w = .ok (.drw x y n)) := by
  cases hstep : step s with
  | fault f => rw [afterStep_fault hstep]; exact .inl rfl
  | refused r => rw [afterStep_refused hstep]; exact .inl rfl
  | next t =>
    rw [afterStep_next hstep]
    obtain ⟨-, w, hf, ⟨_, -, rfl⟩ | ⟨i, u, hd, hu, rfl⟩⟩ := step_next_cases hstep
    · exact .inl rfl
    · obtain hsame | ⟨ign, rfl⟩ | ⟨x, y, n, rfl⟩ := exec_fb_cases hu
      · exact .inl hsame
      · exact .inr ⟨w, hf, .inl ⟨ign, hd⟩⟩
      · exact .inr ⟨w, hf, .inr ⟨x, y, n, hd⟩⟩

/-- Settles O38: a load and a key change leave the pixels alone, so the move was a step. -/
theorem framebufferWrittenOnlyByClsAndDrw : Obligations.FramebufferWrittenOnlyByClsAndDrw := by
  unfold Obligations.FramebufferWrittenOnlyByClsAndDrw
  intro s m hreset hne
  cases m with
  | step => exact ⟨rfl, (afterStep_fb_cases s).resolve_left hne⟩
  | load bytes => exact absurd (State.load_fb s bytes) hne
  | keySet k b => exact absurd rfl hne
  | reset => exact absurd rfl hreset

/-! ### The report stream (R202) -/

/-- What an instruction can append to the report stream. -/
theorem exec_reportOut_cases {i : Instr} {s t : State} (h : exec i s = .next t) : t.reportOut = s.reportOut ∨
    (t.reportOut = s.reportOut ++ [.stackUnderflow (encode i) s.fetchAddr] ∧ s.sp.val = 0 ∧ ∃ ign, i = .ret ign) ∨
    (t.reportOut = s.reportOut ++ [.stackOverflow (encode i) s.fetchAddr] ∧ s.sp.val = 16 ∧ ∃ nnn, i = .call nnn) := by
  cases i
  case ret ign =>
    obtain hpop | ⟨h0, rfl⟩ := exec_ret_next h
    · exact .inl (congrArg State.reportOut (pop_frame hpop) :)
    · exact .inr (.inl ⟨rfl, h0, ign, rfl⟩)
  case call nnn =>
    obtain ⟨_, rfl⟩ | ⟨hfull, rfl⟩ := exec_call_next h
    · exact .inl rfl
    · exact .inr (.inr ⟨rfl, hfull, nnn, rfl⟩)
  all_goals exact .inl (congrArg State.reportOut (exec_frame h) :)

/-- Settles O44: the cycle reports an UNKNOWN word, RET and CALL report an empty and a full stack, and the word they name is
the one fetched, because encoding inverts decoding. -/
theorem stepEmitsAtMostOneReport : Obligations.StepEmitsAtMostOneReport := by
  unfold Obligations.StepEmitsAtMostOneReport
  intro s t w _ hf hstep
  obtain ⟨r, hd, rfl⟩ | ⟨i, u, hd, hu, rfl⟩ := step_next_cases_of_fetch hf hstep
  · exact .inr (.inl ⟨rfl, r, hd⟩)
  · have hreport := exec_reportOut_cases hu
    rw [encodeInvertsDecode w i hd, fetchAddr_advance] at hreport
    obtain hsame | ⟨hout, h0, ign, rfl⟩ | ⟨hout, hfull, nnn, rfl⟩ := hreport
    · exact .inl hsame
    · exact .inr (.inr (.inl ⟨hout, h0, ign, hd⟩))
    · exact .inr (.inr (.inr ⟨hout, hfull, nnn, hd⟩))

/-! ### The program counter (R25) -/

/-- A skip on top of the advance leaves `PC` 4 further on, and no skip 2 further on. -/
theorem skipIf_advance_pc (s : State) {b : Bool} {c : Prop} (hbc : b = true ↔ c) :
    (c → (s.advance.skipIf b).pc = s.pc + 4) ∧ (¬ c → (s.advance.skipIf b).pc = s.pc + 2) := by
  rw [State.skipIf_pc, State.advance_pc]
  refine ⟨fun hc => ?_, fun hc => if_neg fun hb => hc (hbc.1 hb)⟩
  rw [if_pos (hbc.2 hc), BitVec.add_assoc]
  rfl

/-- Settles O13: the jumps, CALL, RET, the skips and FX0A each by what they answer; no other frame names `PC`, so the rest
leave it where the advance put it. -/
theorem programCounterAfterEachInstruction : Obligations.ProgramCounterAfterEachInstruction := by
  unfold Obligations.ProgramCounterAfterEachInstruction
  intro s t w _ hf hstep skips
  obtain ⟨r, hd, rfl⟩ | ⟨i, u, hd, hu, rfl⟩ := step_next_cases_of_fetch hf hstep
  · rw [hd]
    rfl
  rw [hd]
  cases i
  case jp nnn => cases hu; exact toNat_zext12 nnn
  case jpV0 nnn => cases hu; exact toNat_zext12_add_zext8 ..
  case call nnn =>
    obtain ⟨hlt, rfl⟩ | ⟨hfull, rfl⟩ := exec_call_next hu
    · exact ⟨fun _ => toNat_zext12 nnn, fun hfull => absurd hfull hlt.ne⟩
    · exact ⟨fun hlt => absurd hfull hlt.ne, fun _ => rfl⟩
  case ret ign =>
    obtain hpop | ⟨h0, rfl⟩ := exec_ret_next hu
    · refine ⟨fun j hj => ?_, fun h0 => ?_⟩
      · rw [pop_eq_some (s := s.advance) j.isLt hj] at hpop
        cases hpop
        rfl
      · have hnone : s.advance.pop = none := pop_eq_none.2 h0
        simp [hnone] at hpop
    · refine ⟨fun j hj => ?_, fun _ => rfl⟩
      have hne : s.sp.val ≠ 0 := by omega
      exact absurd h0 hne
  case seImm | seReg => cases hu; exact skipIf_advance_pc s beq_iff_eq
  case sneImm | sneReg => cases hu; exact skipIf_advance_pc s bne_iff_ne
  case skp => obtain rfl := exec_skp_next hu; exact skipIf_advance_pc s Iff.rfl
  case sknp => obtain rfl := exec_sknp_next hu; exact skipIf_advance_pc s (Bool.not_eq_true' _).to_iff
  case ldVxK =>
    obtain ⟨k, hk, rfl⟩ | ⟨hnone, rfl⟩ := exec_ldVxK_next hu
    · refine ⟨fun _ => rfl, fun hall => ?_⟩
      have hnone : s.advance.firstKey = none := firstKey_eq_none.2 hall
      simp [hnone] at hk
    · refine ⟨fun ⟨k, hk⟩ => ?_, fun _ => BitVec.add_sub_cancel ..⟩
      have hoff : s.key[k] = false := firstKey_eq_none.1 hnone k
      simp [hoff] at hk
  all_goals exact (congrArg State.pc (exec_frame hu) :)

/-! ### The parts of a step (R90 to R94) -/

/-- Settles O10: the step is the tick after the meaning on the advanced state, for each of the three answers. -/
theorem stepRunsTheDecodedInstruction : Obligations.StepRunsTheDecodedInstruction := by
  unfold Obligations.StepRunsTheDecodedInstruction
  intro s w i hs hf hd
  have hstep : step s = thenTick (exec i { s with pc := s.pc + 2 }) := step_decoded hs hf hd
  refine ⟨fun t ht => ?_, fun f hfault => ?_, fun r hrefused => ?_⟩
  · rw [hstep, ht]; rfl
  · rw [hstep, hfault]; rfl
  · rw [hstep, hrefused]; rfl

end Sys2Proof.Machine
end

section
/-! SUPPORT. What a program cannot see (R30, R32, R202): the hidden parts of a state, how the meanings pass them by, and
that two machines which differ only there step alike. -/

namespace Sys2Proof.Machine

/-! ### The hidden parts -/

/-- `s` with other stack entries, another sound timer and other reports. -/
def State.withHidden (s : State) (k : Vector Word 16) (b : Byte) (rs : List Report) : State :=
  { s with stack := k, st := b, reportOut := rs }

/-- An answer with the hidden parts of its state replaced. -/
def withHiddenNext (k : Vector Word 16) (b : Byte) (rs : List Report) : Result → Result
  | .next t => .next (t.withHidden k b rs)
  | .fault f => .fault f
  | .refused r => .refused r

/-- Two states look alike exactly if one is the other with hidden parts replaced, the live stack entries staying. -/
theorem indistinguishable_iff {s s' : State} : Indistinguishable s s' ↔
    ∃ k b rs, s' = s.withHidden k b rs ∧ ∀ j : Fin 16, j.val < s.sp.val → k[j] = s.stack[j] := by
  constructor
  · rintro ⟨hframe, hlive⟩
    exact ⟨s'.stack, s'.st, s'.reportOut, hframe, hlive⟩
  · rintro ⟨k, b, rs, rfl, hlive⟩
    exact ⟨rfl, hlive⟩

section
variable {s : State} {k : Vector Word 16} {b : Byte} {rs : List Report}

theorem withBlock_withHidden {instr : Instr} {n : Nat} {f f' : List Nat → State}
    (hf : ∀ ps, f' ps = (f ps).withHidden k b rs) :
    withBlock instr (s.withHidden k b rs) n f' = withHiddenNext k b rs (withBlock instr s n f) := by
  obtain rfl : f' = fun ps => (f ps).withHidden k b rs := funext hf
  obtain ⟨hpass, heq⟩ | ⟨hp, hn, hI, heq⟩ := withBlock_cases instr s n f
  · rw [heq]
    exact withBlock_ok (s := s.withHidden k b rs) hpass
  · rw [heq]
    exact withBlock_error (s := s.withHidden k b rs) hp hn hI

theorem aluVF_withHidden (instr : Instr) (x y : Reg) (readsY : Bool) (op : AluOp) :
    aluVF instr x y readsY op (s.withHidden k b rs) = withHiddenNext k b rs (aluVF instr x y readsY op s) := by
  by_cases h : s.params.vfDest = .refuse ∧ namesVF x y readsY = true
  · rw [aluVF_refused h.1 h.2]
    exact aluVF_refused (s := s.withHidden k b rs) h.1 h.2
  · have hok : s.params.vfDest = .flagLast ∨ namesVF x y readsY = false := by
      cases hp : s.params.vfDest <;> simp_all
    rw [aluVF_ok hok]
    exact aluVF_ok (s := s.withHidden k b rs) hok

/-- With a glyph number, FX29 answers a `setI`. -/
theorem exec_ldFVx_eq_setI {x : Reg} {d : Nat} (h : glyphIndex s.params.fontIndex s.v[x] = some d) :
    exec (.ldFVx x) s = .next (s.setI (glyphAddr d)) := by
  rw [exec, execLdFVx, h]

theorem skipIf_withHidden (c : Bool) : (s.withHidden k b rs).skipIf c = (s.skipIf c).withHidden k b rs := by
  cases c <;> rfl

/-- Only CALL writes the stack (R30). -/
theorem exec_stack_of_ne_call {i : Instr} {t : State} (hcall : ∀ nnn, i ≠ .call nnn) (h : exec i s = .next t) :
    t.stack = s.stack := by
  cases i
  case call nnn => exact absurd rfl (hcall nnn)
  all_goals exact (congrArg State.stack (exec_frame h) :)

/-- An instruction that is neither RET nor CALL nor FX18 neither reads nor writes what is hidden. -/
theorem exec_withHidden {i : Instr} (hret : ∀ ign, i ≠ .ret ign) (hcall : ∀ nnn, i ≠ .call nnn) (hst : ∀ x, i ≠ .ldSTVx x) :
    exec i (s.withHidden k b rs) = withHiddenNext k b rs (exec i s) := by
  cases i
  case ret ign => exact absurd rfl (hret ign)
  case call nnn => exact absurd rfl (hcall nnn)
  case ldSTVx x => exact absurd rfl (hst x)
  case seImm | sneImm | seReg | sneReg => exact congrArg Host.Outcome.next (skipIf_withHidden _)
  case skp x ign =>
    cases hk : keyIndex s.params.keyIndex s.v[x] with
    | none => rw [exec_skp_of_keyIndex_none hk]; exact exec_skp_of_keyIndex_none (s := s.withHidden k b rs) hk
    | some key => rw [exec_skp_of_keyIndex hk]; exact exec_skp_of_keyIndex (s := s.withHidden k b rs) hk
  case sknp x ign =>
    cases hk : keyIndex s.params.keyIndex s.v[x] with
    | none => rw [exec_sknp_of_keyIndex_none hk]; exact exec_sknp_of_keyIndex_none (s := s.withHidden k b rs) hk
    | some key => rw [exec_sknp_of_keyIndex hk]; exact exec_sknp_of_keyIndex (s := s.withHidden k b rs) hk
  case ldFVx x =>
    cases hd : glyphIndex s.params.fontIndex s.v[x] with
    | none => rw [exec_ldFVx_of_glyphIndex_none hd]; exact exec_ldFVx_of_glyphIndex_none (s := s.withHidden k b rs) hd
    | some d => rw [exec_ldFVx_eq_setI hd]; exact exec_ldFVx_eq_setI (s := s.withHidden k b rs) hd
  case ldVxK x =>
    cases hk : s.firstKey with
    | none => rw [exec_ldVxK_of_firstKey_none hk]; exact exec_ldVxK_of_firstKey_none (s := s.withHidden k b rs) hk
    | some key => rw [exec_ldVxK_of_firstKey hk]; exact exec_ldVxK_of_firstKey (s := s.withHidden k b rs) hk
  case addReg | subReg | shr | subnReg | shl => exact aluVF_withHidden ..
  case ldBVx | ldMemVx | ldVxMem | drw => exact withBlock_withHidden fun _ => rfl
  all_goals rfl

end

/-! ### Agreement of two answers -/

/-- Two answers agree: states that look alike, or the same fault, or the same refusal. -/
def AnswersAgree : Result → Result → Prop
  | .next t, .next t' => Indistinguishable t t'
  | .fault f, .fault f' => f = f'
  | .refused r, .refused r' => r = r'
  | _, _ => False

/-- The tick decrements the timers of both, and `DT` is the same in both. -/
theorem Indistinguishable.tick {t t' : State} (h : Indistinguishable t t') : Indistinguishable t.tick t'.tick := by
  obtain ⟨k, b, rs, rfl, hlive⟩ := indistinguishable_iff.1 h
  exact ⟨rfl, hlive⟩

section
variable {a : Result}

theorem AnswersAgree.of_next {t : State} (h : AnswersAgree (.next t) a) : ∃ t', a = .next t' ∧ Indistinguishable t t' := by
  cases a with
  | next t' => exact ⟨t', rfl, h⟩
  | fault _ | refused _ => exact h.elim

theorem AnswersAgree.of_fault {f : Fault} (h : AnswersAgree (.fault f) a) : a = .fault f := by
  cases a with
  | fault f' => exact congrArg Host.Outcome.fault h.symm
  | next _ | refused _ => exact h.elim

theorem AnswersAgree.of_refused {r : Refusal} (h : AnswersAgree (.refused r) a) : a = .refused r := by
  cases a with
  | refused r' => exact congrArg Host.Outcome.refused h.symm
  | next _ | fault _ => exact h.elim

end

theorem AnswersAgree.tick {a a' : Result} (h : AnswersAgree a a') : AnswersAgree (thenTick a) (thenTick a') := by
  cases a with
  | next t => obtain ⟨t', rfl, ht⟩ := h.of_next; exact ht.tick
  | fault f => rw [h.of_fault]; rfl
  | refused r => rw [h.of_refused]; rfl

section
variable {s s' : State}

/-- The two machines append the same report. -/
theorem Indistinguishable.report (h : Indistinguishable s s') (r : Report) :
    Indistinguishable (s.report r) (s'.report r) := by
  obtain ⟨k, b, rs, rfl, hlive⟩ := indistinguishable_iff.1 h
  exact ⟨rfl, hlive⟩

/-- RET pops a live entry, the same in both, or reports in both. -/
theorem exec_ret_agree (ign : Byte) (h : Indistinguishable s s') : AnswersAgree (exec (.ret ign) s) (exec (.ret ign) s') := by
  have hreport := h.report (.stackUnderflow (encode (.ret ign)) s.fetchAddr)
  obtain ⟨k, b, rs, rfl, hlive⟩ := indistinguishable_iff.1 h
  obtain h0 | ⟨n, hn⟩ : s.sp.val = 0 ∨ ∃ n, s.sp.val = n + 1 := by
    cases s.sp.val <;> simp
  · rw [exec_ret_of_pop_none (pop_eq_none.2 h0), exec_ret_of_pop_none (s := s.withHidden k b rs) (pop_eq_none.2 h0)]
    exact hreport
  · have hlt : n < 16 := by omega
    have htop : k[n] = s.stack[n] := hlive ⟨n, hlt⟩ (by simp [hn])
    rw [exec_ret_of_pop (pop_eq_some hlt hn), exec_ret_of_pop (pop_eq_some (s := s.withHidden k b rs) hlt hn)]
    refine ⟨?_, fun j hj => hlive j (by simp at hj; omega)⟩
    simp [State.withHidden, htop]

/-- CALL pushes the same entry on both, which is live after it, or reports in both. -/
theorem exec_call_agree (nnn : Imm12) (h : Indistinguishable s s') :
    AnswersAgree (exec (.call nnn) s) (exec (.call nnn) s') := by
  have hreport := h.report (.stackOverflow (encode (.call nnn)) s.fetchAddr)
  obtain ⟨k, b, rs, rfl, hlive⟩ := indistinguishable_iff.1 h
  by_cases hlt : s.sp.val < 16
  · rw [exec_call_of_lt hlt, exec_call_of_lt (s := s.withHidden k b rs) hlt]
    refine ⟨rfl, fun j hj => ?_⟩
    show (k.set s.sp.val s.pc hlt)[j.val] = (s.stack.set s.sp.val s.pc hlt)[j.val]
    rw [Vector.getElem_set, Vector.getElem_set]
    split
    · rfl
    · exact hlive j (by simp at hj; omega)
  · have hfull : s.sp.val = 16 := by omega
    rw [exec_call_of_full hfull, exec_call_of_full (s := s.withHidden k b rs) hfull]
    exact hreport

/-- Every instruction answers two machines that look alike alike. -/
theorem exec_agree (i : Instr) (h : Indistinguishable s s') : AnswersAgree (exec i s) (exec i s') := by
  by_cases hret : ∃ ign, i = .ret ign
  · obtain ⟨ign, rfl⟩ := hret
    exact exec_ret_agree ign h
  by_cases hcall : ∃ nnn, i = .call nnn
  · obtain ⟨nnn, rfl⟩ := hcall
    exact exec_call_agree nnn h
  obtain ⟨k, b, rs, rfl, hlive⟩ := indistinguishable_iff.1 h
  by_cases hst : ∃ x, i = .ldSTVx x
  · obtain ⟨x, rfl⟩ := hst
    exact ⟨rfl, hlive⟩
  have hret := not_exists.1 hret
  have hcall := not_exists.1 hcall
  rw [exec_withHidden hret hcall (not_exists.1 hst)]
  cases ht : exec i s with
  | next t =>
    have hsp : t.sp = s.sp := exec_sp_of_ne_call_ret hcall hret ht
    have hstack : t.stack = s.stack := exec_stack_of_ne_call hcall ht
    refine indistinguishable_iff.2 ⟨k, b, rs, rfl, ?_⟩
    rw [hsp, hstack]
    exact hlive
  | fault f => rfl
  | refused r => rfl

/-- So does every word, UNKNOWN words too. -/
theorem dispatch_agree (w : Word) (h : Indistinguishable s s') : AnswersAgree (dispatch w s) (dispatch w s') := by
  unfold dispatch
  cases decodeWord w with
  | ok i => exact exec_agree i h
  | error r =>
    have hreport := h.report (.unknownOpcode w s.fetchAddr)
    obtain ⟨k, b, rs, rfl, -⟩ := indistinguishable_iff.1 h
    exact hreport

/-- The fetch and the advance read and write nothing hidden. -/
theorem step_agree (h : Indistinguishable s s') : AnswersAgree (step s) (step s') := by
  obtain ⟨k, b, rs, rfl, hlive⟩ := indistinguishable_iff.1 h
  cases hs : s.status with
  | running =>
    rw [step_running hs, step_running (s := s.withHidden k b rs) hs]
    have hfetch : fetch (s.withHidden k b rs) = fetch s := rfl
    have hadvance : Indistinguishable s.advance (s.withHidden k b rs).advance := ⟨rfl, hlive⟩
    unfold cycleDriver
    rw [hfetch]
    cases fetch s with
    | ok w => exact (dispatch_agree w hadvance).tick
    | error f => rfl
  | faulted f => rw [step_faulted hs, step_faulted (s := s.withHidden k b rs) hs]; rfl
  | refused r => rw [step_refused hs, step_refused (s := s.withHidden k b rs) hs]; rfl

end

/-- Settles O58: the answers of the two steps agree, read off for each of the three. -/
theorem hiddenStateIsNeverObserved : Obligations.HiddenStateIsNeverObserved := by
  unfold Obligations.HiddenStateIsNeverObserved
  intro s s' h
  have hagree := step_agree h
  refine ⟨fun t ht => ?_, fun f hf => ?_, fun r hr => ?_⟩
  · exact (ht ▸ hagree : AnswersAgree (.next t) (step s')).of_next
  · exact (hf ▸ hagree : AnswersAgree (.fault f) (step s')).of_fault
  · exact (hr ▸ hagree : AnswersAgree (.refused r) (step s')).of_refused

end Sys2Proof.Machine
end

section
/-! SUPPORT. How a step stops (60_exceptions.md R200 to R206): each cause of a fault and of a refusal, and that the total
policies leave none; and the two states in which a machine only counts its timers down (R183, R243). -/

namespace Sys2Proof.Machine

/-! ### Meanings that always complete -/

section
variable (s : State)

theorem exec_ret_completes (ign : Byte) : ∃ t, exec (.ret ign) s = .next t := by
  cases hp : s.pop with
  | none => exact ⟨_, exec_ret_of_pop_none hp⟩
  | some t => exact ⟨t, exec_ret_of_pop hp⟩

theorem exec_call_completes (nnn : Imm12) : ∃ t, exec (.call nnn) s = .next t := by
  by_cases hlt : s.sp.val < 16
  · exact ⟨_, exec_call_of_lt hlt⟩
  · exact ⟨_, exec_call_of_full (by omega)⟩

theorem exec_ldVxK_completes (x : Reg) : ∃ t, exec (.ldVxK x) s = .next t := by
  cases hk : s.firstKey with
  | none => exact ⟨_, exec_ldVxK_of_firstKey_none hk⟩
  | some k => exact ⟨_, exec_ldVxK_of_firstKey hk⟩

/-- `aluVF` completes, or refuses a form that names VF under the policy that refuses. -/
theorem aluVF_cases (instr : Instr) (x y : Reg) (readsY : Bool) (op : AluOp) :
    (∃ t, aluVF instr x y readsY op s = .next t) ∨
    (s.params.vfDest = .refuse ∧ namesVF x y readsY = true ∧
      aluVF instr x y readsY op s = .refused (.vfOperand (encode instr) s.fetchAddr)) := by
  by_cases hnames : namesVF x y readsY = true
  · cases hp : s.params.vfDest with
    | flagLast => exact .inl ⟨_, aluVF_ok (.inl hp)⟩
    | refuse => exact .inr ⟨rfl, hnames, aluVF_refused hp hnames⟩
  · exact .inl ⟨_, aluVF_ok (.inr (eq_false_of_ne_true hnames))⟩

end

/-! ### Faults -/

section
variable {s : State} {f : Fault}

/-- A block faults under `MEM_ADDR_POLICY = fault`, where it runs past 0xFFF. -/
theorem withBlock_fault {instr : Instr} {n : Nat} {k : List Nat → State} (h : withBlock instr s n k = .fault f) :
    f = .memRange (encode instr) s.fetchAddr (max s.i.toNat 0x1000) ∧ s.params.memAddr = .fault ∧ 1 ≤ n ∧
      s.i.toNat + n - 1 > 0xFFF := by
  obtain ⟨-, e⟩ | ⟨hp, hn, hI, e⟩ := withBlock_cases instr s n k <;> rw [e] at h <;> cases h
  exact ⟨rfl, hp, hn, hI⟩

theorem glyphIndex_eq_none {p : FontIndexPolicy} {b : Byte} (h : glyphIndex p b = none) : p = .fault ∧ b.toNat > 15 := by
  cases p with
  | formula | mask4 => cases h
  | fault =>
    refine ⟨rfl, ?_⟩
    by_contra hle
    simp [glyphIndex_ok (p := .fault) (.inr (Nat.le_of_not_gt hle))] at h

/-- The causes of an instruction's fault, by its kind. -/
theorem exec_fault_cases {i : Instr} (h : exec i s = .fault f) :
    (f = .memRange (encode i) s.fetchAddr (max s.i.toNat 0x1000) ∧ s.params.memAddr = .fault ∧
      ((∃ x y n, i = .drw x y n ∧ 1 ≤ n.toNat ∧ s.i.toNat + n.toNat - 1 > 0xFFF) ∨
       (∃ x, i = .ldBVx x ∧ s.i.toNat + 2 > 0xFFF) ∨
       (∃ x, (i = .ldMemVx x ∨ i = .ldVxMem x) ∧ s.i.toNat + x.val > 0xFFF))) ∨
    (f = .keyRange (encode i) s.fetchAddr ∧ s.params.keyIndex = .fault ∧
      ∃ x ign, (i = .skp x ign ∨ i = .sknp x ign) ∧ (s.v[x]).toNat > 15) ∨
    (f = .fontRange (encode i) s.fetchAddr ∧ s.params.fontIndex = .fault ∧ ∃ x, i = .ldFVx x ∧ (s.v[x]).toNat > 15) := by
  cases i
  case drw x y n =>
    obtain ⟨rfl, hp, hn, hI⟩ := withBlock_fault h
    exact .inl ⟨rfl, hp, .inl ⟨x, y, n, rfl, hn, hI⟩⟩
  case ldBVx x =>
    obtain ⟨rfl, hp, -, hI⟩ := withBlock_fault h
    exact .inl ⟨rfl, hp, .inr (.inl ⟨x, rfl, hI⟩)⟩
  case ldMemVx x =>
    obtain ⟨rfl, hp, -, hI⟩ := withBlock_fault h
    exact .inl ⟨rfl, hp, .inr (.inr ⟨x, .inl rfl, hI⟩)⟩
  case ldVxMem x =>
    obtain ⟨rfl, hp, -, hI⟩ := withBlock_fault h
    exact .inl ⟨rfl, hp, .inr (.inr ⟨x, .inr rfl, hI⟩)⟩
  case skp x ign =>
    cases hk : keyIndex s.params.keyIndex s.v[x] with
    | some k => cases (exec_skp_of_keyIndex hk).symm.trans h
    | none =>
      rw [exec_skp_of_keyIndex_none hk] at h
      cases h
      obtain ⟨hp, hv⟩ := keyIndex_none.1 hk
      exact .inr (.inl ⟨rfl, hp, x, ign, .inl rfl, hv⟩)
  case sknp x ign =>
    cases hk : keyIndex s.params.keyIndex s.v[x] with
    | some k => cases (exec_sknp_of_keyIndex hk).symm.trans h
    | none =>
      rw [exec_sknp_of_keyIndex_none hk] at h
      cases h
      obtain ⟨hp, hv⟩ := keyIndex_none.1 hk
      exact .inr (.inl ⟨rfl, hp, x, ign, .inr rfl, hv⟩)
  case ldFVx x =>
    cases hd : glyphIndex s.params.fontIndex s.v[x] with
    | some d => cases (exec_ldFVx_eq_setI hd).symm.trans h
    | none =>
      rw [exec_ldFVx_of_glyphIndex_none hd] at h
      cases h
      obtain ⟨hp, hv⟩ := glyphIndex_eq_none hd
      exact .inr (.inr ⟨rfl, hp, x, rfl, hv⟩)
  case ret ign => obtain ⟨t, ht⟩ := exec_ret_completes s ign; cases ht.symm.trans h
  case call nnn => obtain ⟨t, ht⟩ := exec_call_completes s nnn; cases ht.symm.trans h
  case ldVxK x => obtain ⟨t, ht⟩ := exec_ldVxK_completes s x; cases ht.symm.trans h
  case addReg | subReg | shr | subnReg | shl =>
    obtain ⟨t, ht⟩ | ⟨-, -, hrefused⟩ := aluVF_cases s _ _ _ _ _
    · cases ht.symm.trans h
    · cases hrefused.symm.trans h
  all_goals cases h

end

/-- Settles O45: the fault is the fetch's or the instruction's, whose record names the word fetched because encoding inverts
decoding. -/
theorem faultsHaveTheirNamedCauses : Obligations.FaultsHaveTheirNamedCauses := by
  unfold Obligations.FaultsHaveTheirNamedCauses
  intro s f hs hstep
  obtain hfetch | ⟨w, i, hf, hd, hfault⟩ := step_fault_cases hs hstep
  · obtain ⟨-, hok⟩ | ⟨hp, hpc, herr⟩ := fetch_cases s
    · rw [hok] at hfetch; cases hfetch
    · exact .inl ⟨Except.error.inj (hfetch.symm.trans herr), hp, hpc⟩
  · have hcauses := exec_fault_cases hfault
    rw [encodeInvertsDecode w i hd, fetchAddr_advance] at hcauses
    refine .inr ⟨w, hf, ?_⟩
    simp only [hd, Except.ok.injEq]
    exact hcauses

/-! ### Refusals -/

section
variable {s : State} {r : Refusal}

theorem withBlock_ne_refused {instr : Instr} {n : Nat} {k : List Nat → State} : withBlock instr s n k ≠ .refused r := by
  intro h
  obtain ⟨-, e⟩ | ⟨-, -, -, e⟩ := withBlock_cases instr s n k <;> cases e.symm.trans h

theorem eq_of_aluVF_eq_refused {instr : Instr} {x y : Reg} {readsY : Bool} {op : AluOp}
    (h : aluVF instr x y readsY op s = .refused r) :
    s.params.vfDest = .refuse ∧ r = .vfOperand (encode instr) s.fetchAddr ∧ namesVF x y readsY = true := by
  obtain ⟨t, ht⟩ | ⟨hp, hnames, hrefused⟩ := aluVF_cases s instr x y readsY op
  · cases ht.symm.trans h
  · cases hrefused.symm.trans h
    exact ⟨hp, rfl, hnames⟩

/-- The causes of an instruction's refusal. -/
theorem exec_refused_cases {i : Instr} (h : exec i s = .refused r) :
    s.params.vfDest = .refuse ∧ r = .vfOperand (encode i) s.fetchAddr ∧
      ((∃ x y, (i = .addReg x y ∨ i = .subReg x y ∨ i = .subnReg x y) ∧ (x = Reg.vF ∨ y = Reg.vF)) ∨
       (∃ x y, (i = .shr x y ∨ i = .shl x y) ∧ x = Reg.vF)) := by
  cases i
  case addReg x y =>
    obtain ⟨hp, hr, hnames⟩ := eq_of_aluVF_eq_refused h
    exact ⟨hp, hr, .inl ⟨x, y, .inl rfl, namesVF_of_readsY.1 hnames⟩⟩
  case subReg x y =>
    obtain ⟨hp, hr, hnames⟩ := eq_of_aluVF_eq_refused h
    exact ⟨hp, hr, .inl ⟨x, y, .inr (.inl rfl), namesVF_of_readsY.1 hnames⟩⟩
  case subnReg x y =>
    obtain ⟨hp, hr, hnames⟩ := eq_of_aluVF_eq_refused h
    exact ⟨hp, hr, .inl ⟨x, y, .inr (.inr rfl), namesVF_of_readsY.1 hnames⟩⟩
  case shr x y =>
    obtain ⟨hp, hr, hnames⟩ := eq_of_aluVF_eq_refused h
    exact ⟨hp, hr, .inr ⟨x, y, .inl rfl, namesVF_of_ignoresY.1 hnames⟩⟩
  case shl x y =>
    obtain ⟨hp, hr, hnames⟩ := eq_of_aluVF_eq_refused h
    exact ⟨hp, hr, .inr ⟨x, y, .inr rfl, namesVF_of_ignoresY.1 hnames⟩⟩
  case drw | ldBVx | ldMemVx | ldVxMem => exact absurd h withBlock_ne_refused
  case skp x ign =>
    cases hk : keyIndex s.params.keyIndex s.v[x] with
    | some k => cases (exec_skp_of_keyIndex hk).symm.trans h
    | none => cases (exec_skp_of_keyIndex_none hk).symm.trans h
  case sknp x ign =>
    cases hk : keyIndex s.params.keyIndex s.v[x] with
    | some k => cases (exec_sknp_of_keyIndex hk).symm.trans h
    | none => cases (exec_sknp_of_keyIndex_none hk).symm.trans h
  case ldFVx x =>
    cases hd : glyphIndex s.params.fontIndex s.v[x] with
    | some d => cases (exec_ldFVx_eq_setI hd).symm.trans h
    | none => cases (exec_ldFVx_of_glyphIndex_none hd).symm.trans h
  case ret ign => obtain ⟨t, ht⟩ := exec_ret_completes s ign; cases ht.symm.trans h
  case call nnn => obtain ⟨t, ht⟩ := exec_call_completes s nnn; cases ht.symm.trans h
  case ldVxK x => obtain ⟨t, ht⟩ := exec_ldVxK_completes s x; cases ht.symm.trans h
  all_goals cases h

end

/-- Settles O46: only an instruction refuses, and its record names the word fetched because encoding inverts decoding. -/
theorem refusalsAriseOnlyFromVfOperands : Obligations.RefusalsAriseOnlyFromVfOperands := by
  unfold Obligations.RefusalsAriseOnlyFromVfOperands
  intro s r hs hstep
  obtain ⟨w, i, hf, hd, hrefused⟩ := step_refused_cases hs hstep
  obtain ⟨hp, hr, hcauses⟩ := exec_refused_cases hrefused
  rw [encodeInvertsDecode w i hd, fetchAddr_advance] at hr
  refine ⟨hp, w, hf, hr, ?_⟩
  simp only [hd, Except.ok.injEq]
  exact hcauses

/-! ### Policies that raise nothing (R205) -/

/-- A run's first step, completed. -/
theorem run_succ_of_step {k : Nat} {s t : State} (h : step s = .next t) :
    Sys2Proof.core.run (k + 1) s = Sys2Proof.core.run k t := by
  have hstep : Sys2Proof.core.step s = .next t := h
  simp only [Host.Core.run, hstep]

/-- Under total policies every named cause of a stop is excluded. -/
theorem completes_of_totalParams {s : State} (hs : s.status = .running) (hp : TotalParams s.params) : Completes s := by
  obtain ⟨hmem, hkey, hfont, hvf⟩ := hp
  cases hstep : step s with
  | next t => exact ⟨t, hstep⟩
  | refused r =>
    obtain ⟨hrefuse, -⟩ := refusalsAriseOnlyFromVfOperands s r hs hstep
    simp [hvf] at hrefuse
  | fault f =>
    obtain ⟨-, hfault, -⟩ | ⟨w, -, ⟨-, hfault, -⟩ | ⟨-, hfault, -⟩ | ⟨-, hfault, -⟩⟩ :=
      faultsHaveTheirNamedCauses s f hs hstep
    · simp [hmem] at hfault
    · simp [hmem] at hfault
    · simp [hkey] at hfault
    · exact absurd hfault hfont

/-- Settles O48: each step completes and keeps the machine running under the same parameters. -/
theorem totalPoliciesNeverStop : Obligations.TotalPoliciesNeverStop := by
  unfold Obligations.TotalPoliciesNeverStop
  intro s k hs hp
  induction k generalizing s with
  | zero => exact ⟨s, rfl⟩
  | succ k ih =>
    obtain ⟨t, hstep⟩ := completes_of_totalParams hs hp
    obtain ⟨hrun, -, hparams⟩ := step_keeps hstep
    obtain ⟨u, hu⟩ := ih t hrun (hparams ▸ hp)
    exact ⟨u, (run_succ_of_step hstep).trans hu⟩

/-! ### Machines that only count down (R183, R243) -/

/-- Where every step is a tick, `k` steps lower each timer by `k`, not below 0, and change nothing else. -/
theorem run_of_ticking {P : State → Prop} (hstep : ∀ s, P s → step s = .next s.tick) (htick : ∀ s, P s → P s.tick)
    (k : Nat) {s : State} (hs : P s) :
    ∃ t, Sys2Proof.core.run k s = .next t ∧ P t ∧ t = { s with dt := t.dt, st := t.st } ∧
      t.dt.toNat = s.dt.toNat - k ∧ t.st.toNat = s.st.toNat - k := by
  induction k generalizing s with
  | zero => exact ⟨s, rfl, hs, rfl, rfl, rfl⟩
  | succ k ih =>
    obtain ⟨t, hrun, ht, hframe, hdt, hst⟩ := ih (htick s hs)
    refine ⟨t, (run_succ_of_step (hstep s hs)).trans hrun, ht, hframe, ?_, ?_⟩
    · rw [hdt, State.tick_dt, toNat_decTimer]; omega
    · rw [hst, State.tick_st, toNat_decTimer]; omega

theorem Parked.tick {s : State} (h : Parked s) : Parked s.tick := h

/-- A jump to its own address undoes the advance. -/
theorem Parked.step {s : State} (h : Parked s) : step s = .next s.tick := by
  obtain ⟨hs, w, nnn, hf, hd, hpc⟩ := h
  have hjump : exec (.jp nnn) s.advance = .next (s.setPC (zext12 nnn)) := rfl
  have hself : s.setPC (zext12 nnn) = s := by rw [hpc]; rfl
  rw [step_decoded hs hf hd, hjump, hself]
  rfl

/-- Settles O57: every step of a parked machine is a tick, which keeps it parked. -/
theorem parkedMachineOnlyCountsDown : Obligations.ParkedMachineOnlyCountsDown := by
  unfold Obligations.ParkedMachineOnlyCountsDown
  exact fun s k hs => run_of_ticking (fun _ => Parked.step) (fun _ => Parked.tick) k hs

theorem WaitsForKey.tick {s : State} (h : WaitsForKey s) : WaitsForKey s.tick := h

theorem rewind_advance (s : State) : s.advance.rewind = s := by
  have hpc : s.advance.rewind.pc = s.pc := BitVec.add_sub_cancel ..
  calc s.advance.rewind = s.setPC s.advance.rewind.pc := rfl
    _ = s := by rw [hpc]; rfl

/-- FX0A with no key pressed undoes the advance. -/
theorem WaitsForKey.step {s : State} (h : WaitsForKey s) : step s = .next s.tick := by
  obtain ⟨hs, ⟨w, x, hf, hd⟩, hkeys⟩ := h
  have hnone : s.advance.firstKey = none := firstKey_eq_none.2 hkeys
  rw [step_decoded hs hf hd, exec_ldVxK_of_firstKey_none hnone, rewind_advance]
  rfl

/-- Settles O43: every step of a waiting machine is a tick, which keeps it waiting. -/
theorem keyWaitBlocksTheMachine : Obligations.KeyWaitBlocksTheMachine := by
  unfold Obligations.KeyWaitBlocksTheMachine
  exact fun s k hs => run_of_ticking (fun _ => WaitsForKey.step) (fun _ => WaitsForKey.tick) k hs

end Sys2Proof.Machine
end

section
/-! SUPPORT. Memory (20_memory.md) and the fetch (40_cycle.md): single cells (R56), canonical memories as data (R50), and
what the fetch reads after a store (R65, R91). -/

namespace Sys2Proof.Machine

/-! ### Single cells (R56) -/

/-- One stored byte. -/
theorem readMem_writeMem_singleton {s : State} (hs : MemoryCanonical s) (a c : Nat) (b : Byte) :
    (s.writeMem [a] [b]).readMem c = if c = a then b else s.readMem c :=
  Memory.read_write a c b hs

/-- Settles O53: the second store reads over the first, which keeps memory canonical. -/
theorem storedBytesAreReadBack : Obligations.StoredBytesAreReadBack := by
  unfold Obligations.StoredBytesAreReadBack
  intro s a a' b b' hs ha _ t
  have hs' : MemoryCanonical (s.writeMem [a] [b]) := writeMem_inv (by simpa using ha) hs
  have ht (c : Nat) : t.readMem c = if c = a' then b' else if c = a then b else s.readMem c := by
    rw [readMem_writeMem_singleton hs', readMem_writeMem_singleton hs]
  refine ⟨?_, fun hne => ?_, fun c hc hc' => ?_⟩
  · rw [ht, if_pos rfl]
  · rw [ht, if_neg hne, if_pos rfl]
  · rw [ht, if_neg hc', if_neg hc]

/-! ### Canonical memories as data (R50) -/

section
variable {font : Font}

theorem Memory.wfFrom_cons {lo k : Nat} {x : Byte} {m : Memory} :
    Memory.wfFrom font lo ((k, x) :: m) = true ↔
      lo ≤ k ∧ k ≤ 0xFFF ∧ x ≠ Memory.unlisted font k ∧ Memory.wfFrom font (k + 1) m = true := by
  simp [Memory.wfFrom, and_assoc]

/-- The first listed cell does not read as its reset contents, so a memory that lists nothing up to it reads differently. -/
theorem Memory.read_head_ne {lo k : Nat} {x : Byte} {m m' : Memory} (h : Memory.wfFrom font lo ((k, x) :: m) = true)
    (h' : Memory.wfFrom font (k + 1) m' = true) : Memory.read font ((k, x) :: m) k ≠ Memory.read font m' k := by
  obtain ⟨-, -, hx, -⟩ := Memory.wfFrom_cons.1 h
  rw [Memory.wfFrom_read_below h' (Nat.lt_succ_self k), Memory.read, if_pos rfl]
  exact hx

/-- Memories that are canonical from one bound on and read alike are the same list: their lowest cells cannot differ, and
then the tails read alike. -/
theorem Memory.eq_of_read_eq {m m' : Memory} : ∀ {lo : Nat}, Memory.wfFrom font lo m = true → Memory.wfFrom font lo m' = true →
    (∀ a, a ≤ 0xFFF → Memory.read font m a = Memory.read font m' a) → m = m' := by
  induction m generalizing m' with
  | nil =>
    intro lo _ h' hread
    cases m' with
    | nil => rfl
    | cons c' m' =>
      obtain ⟨-, hk', -⟩ := Memory.wfFrom_cons.1 h'
      exact absurd (hread c'.1 hk').symm (Memory.read_head_ne h' rfl)
  | cons c m ih =>
    obtain ⟨k, x⟩ := c
    intro lo h h' hread
    obtain ⟨hlo, hk, hx, hm⟩ := Memory.wfFrom_cons.1 h
    cases m' with
    | nil => exact absurd (hread k hk) (Memory.read_head_ne h rfl)
    | cons c' m' =>
      obtain ⟨k', x'⟩ := c'
      obtain ⟨hlo', hk', hx', hm'⟩ := Memory.wfFrom_cons.1 h'
      obtain hlt | rfl | hgt := Nat.lt_trichotomy k k'
      · have hfrom : Memory.wfFrom font (k + 1) ((k', x') :: m') = true := Memory.wfFrom_cons.2 ⟨hlt, hk', hx', hm'⟩
        exact absurd (hread k hk) (Memory.read_head_ne h hfrom)
      · have hhead : x = x' := by simpa [Memory.read] using hread k hk
        have htail : m = m' := ih hm hm' fun a ha => by
          by_cases hak : k = a
          · rw [Memory.wfFrom_read_below hm (by omega), Memory.wfFrom_read_below hm' (by omega)]
          · simpa [Memory.read, hak] using hread a ha
        rw [hhead, htail]
      · have hfrom : Memory.wfFrom font (k' + 1) ((k, x) :: m) = true := Memory.wfFrom_cons.2 ⟨hgt, hk, hx, hm⟩
        exact absurd (hread k' hk').symm (Memory.read_head_ne h' hfrom)

end

/-- Settles O54: the two memories are canonical from 0 on. -/
theorem canonicalMemoriesAreEqual : Obligations.CanonicalMemoriesAreEqual := by
  unfold Obligations.CanonicalMemoriesAreEqual
  exact fun _ _ _ => Memory.eq_of_read_eq

/-! ### The fetch (R52, R91) -/

/-- Settles O9: the fetch of a passing block is its two cells, and out of range the step is the fetch's fault. -/
theorem fetchReadsBigEndianOrFaults : Obligations.FetchReadsBigEndianOrFaults := by
  unfold Obligations.FetchReadsBigEndianOrFaults
  intro s
  refine ⟨fun hpass => ⟨_, fetch_ok hpass, toNat_wordOfBytes _ _⟩, fun hp hpc => ⟨fetch_error hp hpc, fun hs => ?_⟩⟩
  rw [step_running hs, cycleDriver, fetch_error hp hpc]
  rfl

/-- The fetch after bytes were stored from `PC` on reads the first two of them. -/
theorem fetch_writeMem_block {s : State} {n : Nat} {bs : List Byte} (hs : MemoryCanonical s)
    (hpass : BlockPasses s.params s.pc.toNat 2) (hn : 2 ≤ n) (hn' : n ≤ 0x1000) (hbs : bs.length = n) :
    fetch (s.writeMem ((List.range' 0 n).map (physAddr s.pc.toNat)) bs) = .ok (wordOfBytes bs[0] bs[1]) := by
  have hcell {k : Nat} (hk : k < 2) :
      (s.writeMem ((List.range' 0 n).map (physAddr s.pc.toNat)) bs).readMem (physAddr s.pc.toNat k) = bs[k] :=
    readMem_writeMem_block hs hn' (by omega) (by omega)
  refine (fetch_ok (s := s.writeMem _ bs) hpass).trans ?_
  exact congrArg₂ (fun hi lo => Except.ok (wordOfBytes hi lo)) (hcell (by decide)) (hcell (by decide))

/-- Settles O34: the store at the advanced `PC` begins with V0 and V1. -/
theorem fetchSeesTheStoreBefore : Obligations.FetchSeesTheStoreBefore := by
  unfold Obligations.FetchSeesTheStoreBefore
  intro x s t hs hx hi hstore
  obtain ⟨hpass, rfl⟩ := withBlock_next hstore
  rw [hi] at hpass ⊢
  have hpass : BlockPasses s.params s.pc.toNat 2 := fun k hk => hpass k (by omega)
  have hfetch := fetch_writeMem_block hs hpass (by omega) (by omega) (regsUpTo_length s.v x)
  rwa [regsUpTo_get _ _ _ (by decide), regsUpTo_get _ _ _ (by decide)] at hfetch

/-! ### The placed word (log entry 10) -/

theorem wordOfBytes_fields (w : Word) : wordOfBytes (w.extractLsb' 8 8) (w.extractLsb' 0 8) = w := by
  have hw : w.toNat < 65536 := w.isLt
  apply BitVec.eq_of_toNat_eq
  simp only [toNat_wordOfBytes, toNat_field]
  omega

/-- Where the word is placed both bytes pass the check. -/
theorem blockPasses_fetchablePC (s : State) : BlockPasses s.params (fetchablePC s).toNat 2 := by
  unfold fetchablePC
  obtain hpass | ⟨hp, hn, hpc⟩ := blockPasses_or s.params s.pc.toNat 2
  · rw [checkBlock_ok hpass]
    exact hpass
  · rw [hp, checkBlock_error hn hpc]
    intro k hk
    have hentry : entryPoint.toNat = 0x200 := rfl
    exact .inr (show entryPoint.toNat + k ≤ 0xFFF by omega)

/-- A word stored at a `PC` in range is fetched from there. -/
theorem fetch_storeWord {s : State} (hs : MemoryCanonical s) (hpass : BlockPasses s.params s.pc.toNat 2) (w : Word) :
    fetch (storeWord s w) = .ok w := by
  unfold storeWord
  rw [checkBlock_ok hpass]
  refine (fetch_writeMem_block hs hpass (Nat.le_refl 2) (by decide) rfl).trans ?_
  exact congrArg Except.ok (wordOfBytes_fields w)

/-- Storing a word leaves `STATUS` alone. -/
theorem storeWord_status (s : State) (w : Word) : (storeWord s w).status = s.status := by
  unfold storeWord
  split <;> rfl

/-- Settles O59: the placed word is stored at a `PC` in range of a machine set running. -/
theorem placedWordIsFetched : Obligations.PlacedWordIsFetched := by
  unfold Obligations.PlacedWordIsFetched
  intro s w hs
  have hw : BitVec.ofNat 16 (w.toNat % 2 ^ 16) = w := by
    rw [Nat.mod_eq_of_lt w.isLt, BitVec.ofNat_toNat, BitVec.setWidth_eq]
  have hplace : s.withFetchWord 16 w.toNat = placeWord s w := congrArg (placeWord s) hw
  rw [hplace]
  exact ⟨storeWord_status .., fetch_storeWord (s := { s with status := .running, pc := fetchablePC s }) hs
    (blockPasses_fetchablePC s) w⟩

end Sys2Proof.Machine
end

section
/-! SUPPORT. Plain writes: the additions, the logic and RND (42_alu.md R98, R124 to R128, R134), the index register
(43_index_memory.md R151, R152) and the timer moves (45_keys_timers.md R184 to R186). -/

namespace Sys2Proof.Machine

/-- A `setV` in the form that names the value it left. -/
theorem setV_onlyRegWritten_self (s : State) (x : Reg) (b : Byte) : OnlyRegWritten s (s.setV x b) x (s.setV x b).v[x] := by
  rw [setV_get, if_pos rfl]
  exact setV_onlyRegWritten s x b

theorem setV_get_self (s : State) (x : Reg) (b : Byte) : (s.setV x b).v[x] = b := by
  rw [setV_get, if_pos rfl]

/-- Settles O21: each instruction is one `setV`, of the sum or of the result bit by bit. -/
theorem addImmediateAndLogicWriteNoFlag : Obligations.AddImmediateAndLogicWriteNoFlag := by
  unfold Obligations.AddImmediateAndLogicWriteNoFlag
  intro x y nn s
  refine ⟨decodeWord_addImm x nn, decodeWord_orReg x y, decodeWord_andReg x y, decodeWord_xorReg x y,
    ⟨_, rfl, setV_onlyRegWritten_self .., ?_⟩, ⟨_, rfl, setV_onlyRegWritten_self .., fun k => ?_⟩,
    ⟨_, rfl, setV_onlyRegWritten_self .., fun k => ?_⟩, ⟨_, rfl, setV_onlyRegWritten_self .., fun k => ?_⟩⟩
  · rw [setV_get_self, BitVec.toNat_add]
  · rw [setV_get_self, BitVec.getLsbD_or]
  · rw [setV_get_self, BitVec.getLsbD_and]
  · rw [setV_get_self, BitVec.getLsbD_xor]

/-- Settles O25: RND is a `setV` of the masked draw, whatever the draw is, and counts it. -/
theorem randomByteUnderMask : Obligations.RandomByteUnderMask := by
  unfold Obligations.RandomByteUnderMask
  intro x nn s
  have hx : (s.setV x (Config.draw8 s.draws &&& nn)).v[x] = Config.draw8 s.draws &&& nn := setV_get_self ..
  refine ⟨decodeWord_rnd x nn, _, rfl, rfl, fun k => ?_, fun h0 => ?_, fun hF => ?_, fun r hr => ?_⟩
  · exact (congrArg (·.getLsbD k) hx).trans (BitVec.getLsbD_and ..)
  · exact hx.trans (by rw [h0, BitVec.and_zero]; rfl)
  · exact hx.trans (by rw [hF]; exact BitVec.and_allOnes)
  · exact (setV_get ..).trans (if_neg hr)

/-- Settles O27: each instruction is one `setI`. -/
theorem setAndAddIndex : Obligations.SetAndAddIndex := by
  unfold Obligations.SetAndAddIndex
  intro nnn x s
  refine ⟨decodeWord_ldI nnn, decodeWord_addIVx x, ⟨_, rfl, rfl, toNat_zext12 nnn⟩, ⟨_, rfl, rfl, ?_⟩⟩
  rw [State.setI_i, BitVec.toNat_add, toNat_zext8]

/-- Settles O41: each instruction moves one value, which the tick then decrements where it is a timer. -/
theorem timersAreReadAndSet : Obligations.TimersAreReadAndSet := by
  unfold Obligations.TimersAreReadAndSet
  intro x s
  exact ⟨decodeWord_ldVxDT x, decodeWord_ldDTVx x, decodeWord_ldSTVx x,
    ⟨_, rfl, setV_onlyRegWritten s x s.dt, toNat_decTimer s.dt⟩, ⟨_, rfl, rfl, toNat_decTimer s.v[x]⟩,
    ⟨_, rfl, rfl, toNat_decTimer s.v[x]⟩⟩

end Sys2Proof.Machine
end

section
/-! SUPPORT. The framebuffer (44_display.md): CLS (R171), and a sprite drawn twice (95_test_vectors.md S4). -/

namespace Sys2Proof.Machine

/-- Settles O35: CLS writes the blank framebuffer. -/
theorem clearScreen : Obligations.ClearScreen := by
  unfold Obligations.ClearScreen
  intro ign s
  exact ⟨decodeWord_cls ign, _, rfl, rfl, fun px py => by simp [Framebuffer.blank]⟩

/-- Framebuffers with the same pixels are equal. -/
theorem Framebuffer.ext_get {fb fb' : Framebuffer} (h : ∀ q, fb.get q = fb'.get q) : fb = fb' := by
  refine Vector.ext fun py hy => Vector.ext fun px hx => ?_
  exact h (⟨px, hx⟩, ⟨py, hy⟩)

/-- Drawing the same pixels again restores the framebuffer. -/
theorem draw_draw (fb : Framebuffer) {ps : List Pixel} (h : ps.Nodup) : ((fb.draw ps).1.draw ps).1 = fb := by
  refine Framebuffer.ext_get fun q => ?_
  rw [draw_get _ h, draw_get _ h, Bool.xor_assoc, Bool.xor_self, Bool.xor_false]

/-- A pixel that was clear is set after it was drawn. -/
theorem draw_get_of_clear {fb : Framebuffer} {ps : List Pixel} {q : Pixel} (h : ps.Nodup) (hq : q ∈ ps)
    (hclear : fb.get q = false) : (fb.draw ps).1.get q = true := by
  rw [draw_get fb h, hclear, decide_eq_true hq]
  rfl

/-- A completed DRW drew its pixels and left the collision in VF. -/
theorem exec_drw_next {x y : Reg} {n : Nibble} {s t : State} (h : exec (.drw x y n) s = .next t) :
    t = { s.setV Reg.vF (flagByte (s.fb.draw (drwPixels s x y n)).2) with fb := (s.fb.draw (drwPixels s x y n)).1 } := by
  obtain ⟨hpass, -⟩ := withBlock_next h
  rw [exec_drw_of_blockPasses hpass] at h
  cases h
  rfl

/-- A draw that leaves its coordinate registers leaves its pixels: it writes neither `I` nor memory. -/
theorem drwPixels_of_exec_drw {x y : Reg} {n : Nibble} {s t : State} (h : exec (.drw x y n) s = .next t)
    (hx : t.v[x] = s.v[x]) (hy : t.v[y] = s.v[y]) : drwPixels t x y n = drwPixels s x y n := by
  unfold drwPixels
  rw [hx, hy]
  obtain rfl := exec_drw_next h
  rfl

/-- Settles O37: both draws flip the same pixels; on a blank framebuffer the first finds all of them clear and leaves all of
them set, which the second finds. -/
theorem drawingTwiceRestores : Obligations.DrawingTwiceRestores := by
  unfold Obligations.DrawingTwiceRestores
  intro x y n s t u hst hx hy htu
  have hpixels := drwPixels_of_exec_drw hst hx hy
  have hnodup := drwPixels_nodup s x y n
  have hu := exec_drw_next htu
  rw [hpixels] at hu
  have ht := exec_drw_next hst
  have htfb : t.fb = (s.fb.draw (drwPixels s x y n)).1 := congrArg State.fb ht
  have hvF (s' : State) (b : Bool) (fb : Framebuffer) :
      ({ s'.setV Reg.vF (flagByte b) with fb := fb } : State).v[Reg.vF] = flagByte b := setV_get_self s' Reg.vF _
  refine ⟨?_, fun hblank hcov => ⟨?_, ?_⟩⟩
  · rw [hu, htfb]
    exact draw_draw s.fb hnodup
  · have hmiss : (s.fb.draw (drwPixels s x y n)).2 = false := (draw_hit_eq_false s.fb hnodup).2 fun q _ => hblank q.1 q.2
    rw [ht, hvF, hmiss]
    rfl
  · obtain ⟨px, py, hcov⟩ := hcov
    have hmem : (px, py) ∈ drwPixels s x y n := mem_drwPixels.2 hcov
    have hset : t.fb.get (px, py) = true := htfb ▸ draw_get_of_clear hnodup hmem (hblank px py)
    have hhit : (t.fb.draw (drwPixels s x y n)).2 = true := (draw_hit t.fb hnodup).2 ⟨(px, py), hmem, hset⟩
    rw [hu, hvF, hhit]
    rfl

end Sys2Proof.Machine
end
